-- ==== Sys2Proof/Word.lean ====
section
/-! DEFINITION. The word types of the core (spec 00_scope.md R5, R7, R9): 16-bit words and addresses, 8-bit
characters and trap vectors, 3-bit register names. Arithmetic is that of `BitVec`: modulo 2^16, no overflow. -/

namespace Sys2Proof

/-- A 16-bit word: data, an instruction, or an address (R5, R9). -/
abbrev Word := BitVec 16

/-- A character of a stream, or a trap vector: 8 bits (R5, R33). -/
abbrev Byte := BitVec 8

/-- The name of a general register, R0 to R7: a 3-bit field (R20). -/
abbrev RegIdx := BitVec 3

end Sys2Proof
end

