-- ==== Sys2Proof/Syntax.lean ====
section
/-! DEFINITION. The instructions: one constructor per row of spec/opcode_table.json (30_encoding.md R86, R88).
Immediates and offsets are the raw fields of the word; `Machine/Operands.lean` sign-extends them (R89). Bits that R92
calls ignored are not part of an instruction. -/

namespace Sys2Proof

inductive Instr where
  /-- BR: the branch mask bits and PCoffset9 (R141). -/
  | br (n z p : Bool) (off9 : BitVec 9)
  /-- ADD, register mode (R111). -/
  | addReg (dr sr1 sr2 : RegIdx)
  /-- ADD, immediate mode (R112). -/
  | addImm (dr sr1 : RegIdx) (imm5 : BitVec 5)
  /-- LD (R121). -/
  | ld (dr : RegIdx) (off9 : BitVec 9)
  /-- ST (R125). -/
  | st (sr : RegIdx) (off9 : BitVec 9)
  /-- JSR (R143). -/
  | jsr (off11 : BitVec 11)
  /-- JSRR (R144). -/
  | jsrr (base : RegIdx)
  /-- AND, register mode (R113). -/
  | andReg (dr sr1 sr2 : RegIdx)
  /-- AND, immediate mode (R114). -/
  | andImm (dr sr1 : RegIdx) (imm5 : BitVec 5)
  /-- LDR (R123). -/
  | ldr (dr base : RegIdx) (off6 : BitVec 6)
  /-- STR (R127). -/
  | str (sr base : RegIdx) (off6 : BitVec 6)
  /-- RTI (R161). -/
  | rti
  /-- NOT (R115). -/
  | notReg (dr sr1 : RegIdx)
  /-- LDI (R122). -/
  | ldi (dr : RegIdx) (off9 : BitVec 9)
  /-- STI (R126). -/
  | sti (sr : RegIdx) (off9 : BitVec 9)
  /-- JMP; RET is JMP R7 (R142, R98). -/
  | jmp (base : RegIdx)
  /-- RES, the reserved opcode (R162). -/
  | res
  /-- LEA (R124). -/
  | lea (dr : RegIdx) (off9 : BitVec 9)
  /-- TRAP with a vector that no routine row of the table names (R150, R160). -/
  | trap (vect : Byte)
  /-- TRAP x20, GETC (R152). -/
  | trapGetc
  /-- TRAP x21, OUT (R153). -/
  | trapOut
  /-- TRAP x22, PUTS (R154). -/
  | trapPuts
  /-- TRAP x23, IN (R155). -/
  | trapIn
  /-- TRAP x24, PUTSP (R156). -/
  | trapPutsp
  /-- TRAP x25, HALT (R157). -/
  | trapHalt
  /-- TRAP x26, INU16 (R158). -/
  | trapInu16
  /-- TRAP x27, OUTU16 (R159). -/
  | trapOutu16
  deriving DecidableEq, Repr

end Sys2Proof
end

