-- ==== Sys2Proof/WellFormed.lean ====
section
/-! DEFINITION. Which instructions the decoder can produce. Every field has exactly the width of its bits in the word
(30_encoding.md R87), so the one check is on the TRAP row: the vectors 0x20 to 0x27 belong to the routine rows. -/

namespace Sys2Proof

/-- The vector selects one of the eight routines: 0x20 to 0x27 (R5, R94, R150). -/
def validVector (vect : Byte) : Bool := decide (0x20#8 ≤ vect) && decide (vect ≤ 0x27#8)

/-- A well-formed instruction: `trap` carries no vector of a routine row (opcode_table.json, the note of its row). -/
def Instr.wf : Instr → Bool
  | .trap vect => !validVector vect
  | .br .. | .addReg .. | .addImm .. | .ld .. | .st .. | .jsr .. | .jsrr .. | .andReg .. | .andImm .. | .ldr ..
  | .str .. | .rti | .notReg .. | .ldi .. | .sti .. | .jmp .. | .res | .lea .. => true
  | .trapGetc | .trapOut | .trapPuts | .trapIn | .trapPutsp | .trapHalt | .trapInu16 | .trapOutu16 => true

end Sys2Proof
end

