-- ==== Sys2Proof/Decode.lean ====
section
/-! DEFINITION. The decoder (30_encoding.md R99), total on every word (R95), and an encoder written from the formats of
R88. `decodeTableWord` is the host's way to ask the decoder about a row of spec/opcode_table.json. -/

namespace Sys2Proof

/-- The opcode, bits 15:12 (R85, R87). -/
def fieldOpcode (ir : Word) : BitVec 4 := ir.extractLsb' 12 4

/-- DR or SR, bits 11:9 (R87). -/
def fieldDr (ir : Word) : RegIdx := ir.extractLsb' 9 3

/-- SR1 or BaseR, bits 8:6 (R87). -/
def fieldSr1 (ir : Word) : RegIdx := ir.extractLsb' 6 3

/-- SR2, bits 2:0 (R87). -/
def fieldSr2 (ir : Word) : RegIdx := ir.extractLsb' 0 3

/-- imm5, bits 4:0 (R87). -/
def fieldImm5 (ir : Word) : BitVec 5 := ir.extractLsb' 0 5

/-- offset6, bits 5:0 (R87). -/
def fieldOff6 (ir : Word) : BitVec 6 := ir.extractLsb' 0 6

/-- PCoffset9, bits 8:0 (R87). -/
def fieldOff9 (ir : Word) : BitVec 9 := ir.extractLsb' 0 9

/-- PCoffset11, bits 10:0 (R87). -/
def fieldOff11 (ir : Word) : BitVec 11 := ir.extractLsb' 0 11

/-- trapvect8, bits 7:0 (R87). -/
def fieldVect (ir : Word) : Byte := ir.extractLsb' 0 8

/-- The TRAP row a vector belongs to: a routine row for 0x20 to 0x27, the generic row otherwise (R150, R160). -/
def decodeTrap (vect : Byte) : Instr :=
  if vect = 0x20#8 then .trapGetc
  else if vect = 0x21#8 then .trapOut
  else if vect = 0x22#8 then .trapPuts
  else if vect = 0x23#8 then .trapIn
  else if vect = 0x24#8 then .trapPutsp
  else if vect = 0x25#8 then .trapHalt
  else if vect = 0x26#8 then .trapInu16
  else if vect = 0x27#8 then .trapOutu16
  else .trap vect

/-- `Decode(ir)` of R99: the opcode selects the row; bit 5 the mode of ADD and AND (R90), bit 11 the form of opcode 0x4
(R91). The last case is opcode 0xF, the only one left. -/
def decode (ir : Word) : Instr :=
  let op := fieldOpcode ir
  if op = 0x0#4 then .br (ir.getLsbD 11) (ir.getLsbD 10) (ir.getLsbD 9) (fieldOff9 ir)
  else if op = 0x1#4 then
    if ir.getLsbD 5 then .addImm (fieldDr ir) (fieldSr1 ir) (fieldImm5 ir)
    else .addReg (fieldDr ir) (fieldSr1 ir) (fieldSr2 ir)
  else if op = 0x2#4 then .ld (fieldDr ir) (fieldOff9 ir)
  else if op = 0x3#4 then .st (fieldDr ir) (fieldOff9 ir)
  else if op = 0x4#4 then
    if ir.getLsbD 11 then .jsr (fieldOff11 ir) else .jsrr (fieldSr1 ir)
  else if op = 0x5#4 then
    if ir.getLsbD 5 then .andImm (fieldDr ir) (fieldSr1 ir) (fieldImm5 ir)
    else .andReg (fieldDr ir) (fieldSr1 ir) (fieldSr2 ir)
  else if op = 0x6#4 then .ldr (fieldDr ir) (fieldSr1 ir) (fieldOff6 ir)
  else if op = 0x7#4 then .str (fieldDr ir) (fieldSr1 ir) (fieldOff6 ir)
  else if op = 0x8#4 then .rti
  else if op = 0x9#4 then .notReg (fieldDr ir) (fieldSr1 ir)
  else if op = 0xA#4 then .ldi (fieldDr ir) (fieldOff9 ir)
  else if op = 0xB#4 then .sti (fieldDr ir) (fieldOff9 ir)
  else if op = 0xC#4 then .jmp (fieldSr1 ir)
  else if op = 0xD#4 then .res
  else if op = 0xE#4 then .lea (fieldDr ir) (fieldOff9 ir)
  else decodeTrap (fieldVect ir)

/-- The field f at bits lo and up of a word, 0 elsewhere (R87). -/
def place {n : Nat} (lo : Nat) (f : BitVec n) : Word := f.setWidth 16 <<< lo

/-- The word of an instruction, by the formats of R88: each field at its position of R87. Ignored bits take the assembler's
values of R97: 1 in bits 5:0 of NOT, 0 elsewhere. -/
def encode : Instr → Word
  | .br n z p off9 =>
    place 12 0x0#4 ||| place 11 (BitVec.ofBool n) ||| place 10 (BitVec.ofBool z) ||| place 9 (BitVec.ofBool p) |||
      place 0 off9
  | .addReg dr sr1 sr2 => place 12 0x1#4 ||| place 9 dr ||| place 6 sr1 ||| place 0 sr2
  | .addImm dr sr1 imm5 => place 12 0x1#4 ||| place 9 dr ||| place 6 sr1 ||| place 5 0b1#1 ||| place 0 imm5
  | .ld dr off9 => place 12 0x2#4 ||| place 9 dr ||| place 0 off9
  | .st sr off9 => place 12 0x3#4 ||| place 9 sr ||| place 0 off9
  | .jsr off11 => place 12 0x4#4 ||| place 11 0b1#1 ||| place 0 off11
  | .jsrr base => place 12 0x4#4 ||| place 6 base
  | .andReg dr sr1 sr2 => place 12 0x5#4 ||| place 9 dr ||| place 6 sr1 ||| place 0 sr2
  | .andImm dr sr1 imm5 => place 12 0x5#4 ||| place 9 dr ||| place 6 sr1 ||| place 5 0b1#1 ||| place 0 imm5
  | .ldr dr base off6 => place 12 0x6#4 ||| place 9 dr ||| place 6 base ||| place 0 off6
  | .str sr base off6 => place 12 0x7#4 ||| place 9 sr ||| place 6 base ||| place 0 off6
  | .rti => place 12 0x8#4
  | .notReg dr sr1 => place 12 0x9#4 ||| place 9 dr ||| place 6 sr1 ||| place 0 0b111111#6
  | .ldi dr off9 => place 12 0xA#4 ||| place 9 dr ||| place 0 off9
  | .sti sr off9 => place 12 0xB#4 ||| place 9 sr ||| place 0 off9
  | .jmp base => place 12 0xC#4 ||| place 6 base
  | .res => place 12 0xD#4
  | .lea dr off9 => place 12 0xE#4 ||| place 9 dr ||| place 0 off9
  | .trap vect => place 12 0xF#4 ||| place 0 vect
  | .trapGetc => place 12 0xF#4 ||| place 0 0x20#8
  | .trapOut => place 12 0xF#4 ||| place 0 0x21#8
  | .trapPuts => place 12 0xF#4 ||| place 0 0x22#8
  | .trapIn => place 12 0xF#4 ||| place 0 0x23#8
  | .trapPutsp => place 12 0xF#4 ||| place 0 0x24#8
  | .trapHalt => place 12 0xF#4 ||| place 0 0x25#8
  | .trapInu16 => place 12 0xF#4 ||| place 0 0x26#8
  | .trapOutu16 => place 12 0xF#4 ||| place 0 0x27#8

/-- What the decoder reads from an instruction whose `nbits` bits are `w` (the bits above are 0). Every instruction is one
word (R85), so more than 16 bits are no instruction. -/
def decodeTableWord (nbits w : Nat) : Option Instr :=
  if nbits ≤ 16 then some (decode (BitVec.ofNat 16 (w % 2 ^ nbits))) else none

end Sys2Proof
end

