-- ==== Sys2Proof/Config.lean ====
section
/-! DEFINITION. The named parameters of spec 00_scope.md R6 with their defaults, and the fixed addresses of the core
(20_memory.md R54). The parameters that a run reads stand together in `Params`, a field of State that the host sets before
the run and no step changes (log entry 4). ENTRY_PC and INIT_MEM are arguments of `State.load`; DEC_IN and DEC_OUT are
arguments of the decimal routines (log entry 5). No value of this hardware is left open by the spec, so there is no opaque
constant here. -/

namespace Sys2Proof

/-- KBSR_LOW_BITS: what a keyboard poll does to bits 14:0 of KBSR (R6, R56). -/
inductive KbsrLowBits where
  | preserve
  | clear
  deriving DecidableEq, Repr

/-- The parameters of R6 that a step reads. -/
structure Params where
  /-- KBSR_LOW_BITS (D10). -/
  kbsrLowBits : KbsrLowBits
  /-- TRAP_LINKS_R7 (D6). -/
  trapLinksR7 : Bool
  /-- JSRR_LINK_FIRST (D5). -/
  jsrrLinkFirst : Bool
  /-- IN_PROMPT (D22). -/
  inPrompt : List Byte
  /-- HALT_BANNER (D22). -/
  haltBanner : List Byte
  /-- TRACE_ENABLED (D26). -/
  traceEnabled : Bool
  deriving DecidableEq, Repr

/-- The defaults of R6. -/
def Params.default : Params where
  kbsrLowBits := .preserve
  trapLinksR7 := false
  jsrrLinkFirst := true
  inPrompt := []
  haltBanner := []
  traceEnabled := false

/-- ENTRY_PC, its default (R6, R206). -/
def Config.entryPc : Word := 0x3000#16

/-- Keyboard status, KBSR (R54). -/
def Config.kbsr : Word := 0xFE00#16

/-- Keyboard data, KBDR (R54). -/
def Config.kbdr : Word := 0xFE02#16

/-- Display status, DSR (R54). -/
def Config.dsr : Word := 0xFE04#16

/-- Display data, DDR (R54). -/
def Config.ddr : Word := 0xFE06#16

/-- Machine control, MCR (R54). -/
def Config.mcr : Word := 0xFFFE#16

/-- The last address of the protected region 0x0000-0x2FFF (R54, R62). -/
def Config.protectedTop : Word := 0x2FFF#16

end Sys2Proof
end

