-- ==== Sys2Proof/Machine/State.lean ====
section
/-! DEFINITION. The state of the machine as plain data: every piece of state of 10_state.md, memory (20_memory.md R53), the
parameters of the run (00_scope.md R6), the host's input and stop schedule (R33, R35), and the ordered event history (R37).
Also the two reasons a step can stop, and `State.reset` (R38). -/

namespace Sys2Proof.Machine

/-- The condition-flag register: exactly one of Negative, Zero, Positive (R26). `Cond.bits` is its one-hot encoding. -/
inductive Cond where
  | n
  | z
  | p
  deriving DecidableEq, Repr

/-- Run State (R29). -/
inductive RunState where
  | running
  | halted
  deriving DecidableEq, Repr

/-- The stop cause (R30). -/
inductive StopCause where
  | none
  | halt
  | interrupted
  deriving DecidableEq, Repr

/-- The diagnostic events of 60_exceptions.md R181. -/
inductive Diag where
  /-- Code 1: a dropped write of v to the protected address a (R182). -/
  | protWrite (ipc a v : Word)
  /-- Code 2: RTI or RES (R183). -/
  | badOpcode (ipc : Word) (opcode : BitVec 4) (ir : Word)
  /-- Code 3: TRAP with a vector outside 0x20-0x27 (R184). -/
  | badTrap (ipc : Word) (vect : Byte) (ir : Word)
  deriving DecidableEq, Repr

/-- An event at a port of 10_state.md R37; all events stand in one history, in the order the rules perform them. -/
inductive Event where
  /-- Port in_take: the core consumed the character c (R33). -/
  | inTake (c : Byte)
  /-- Port out_char: the core sent the byte c (R34). -/
  | outPut (c : Byte)
  /-- Port diag (R36, R181). -/
  | diag (d : Diag)
  /-- Port trace: address, word, R0-R7 and cond before the instruction executes (R36, R194). -/
  | trace (ipc ir : Word) (regs : Vector Word 8) (cond : Cond)
  /-- Port stop_req: the host raised the stop request (R35). -/
  | stopReq
  deriving DecidableEq, Repr

/-- A character of the host's input sequence (R33). `delay` is the number of further keyboard polls that still find it not
arrived: the host's draws of InReady() for this character, all false before the first true one (log entry 6). -/
structure InChar where
  delay : Nat
  char : Byte
  deriving DecidableEq, Repr

/-- Memory: (address, word) pairs, addresses strictly rising, no entry equal to what an unlisted address reads as
(`Memory.wf` in Machine/Ops.lean). The addressable unit is the 16-bit word (R51; log entry 1). -/
abbrev Memory := List (Nat × Word)

/-- The machine's state. -/
structure State where
  /-- R0 to R7 (R20). -/
  regs : Vector Word 8
  /-- The program counter (R24). -/
  pc : Word
  /-- The condition-flag register (R26). -/
  cond : Cond
  /-- Run State (R29). -/
  run : RunState
  /-- The stop cause (R30). -/
  cause : StopCause
  /-- The backing storage M (R53). -/
  mem : Memory
  /-- The address of the instruction of the current step (R39). -/
  ipc : Word
  /-- The instruction register of the current step (R39). -/
  ir : Word
  /-- The characters the host still has, the next one first (R33). -/
  input : List InChar
  /-- The latch stop_pending (R35). -/
  stopPending : Bool
  /-- The model's own: after how many further instructions the host raises stop_req, if it does (log entry 8). -/
  stopIn : Option Nat
  /-- Every event so far, the oldest first (R37). -/
  history : List Event
  /-- The parameters of the run (R6; log entry 4). -/
  params : Params
  deriving DecidableEq, Repr

/-- Why a step can fail to end. -/
inductive Fault where
  /-- A reading trap routine (GETC, IN, INU16) waits for a character and the host's sequence is exhausted: the core is
  stuck in this step for ever (R151, I8). `held` is the state in which it holds, with what the routine did before. Raised
  by `State.waitChar` and `routineInu16` in Machine/Traps.lean. SAFE: the machine makes no further progress there, so
  nothing is claimed of a state after the step (log entry 7). -/
  | inputExhausted (held : State)
  deriving DecidableEq, Repr

/-- Why the model rejects. -/
inductive Refusal where
  /-- No meaning yet for the instruction of that name. Raised by no arm: every instruction has its meaning. SAFE. -/
  | notModelled (mnemonic : String)
  /-- An "unreadable or empty image file": the host aborts before the run (R185, R208, I20). Raised by `State.load` and
  `imageWords` (Machine/Load.lean), before any step. SAFE: no run exists. -/
  | badImage
  deriving DecidableEq, Repr

/-- The state right after reset, nothing loaded (R38): the entry point and the parameters at their defaults, memory as
INIT_MEM, no host input, no stop request. -/
def State.reset : State where
  regs := Vector.replicate 8 0#16
  pc := Config.entryPc
  cond := .z
  run := .running
  cause := .none
  mem := []
  ipc := 0#16
  ir := 0#16
  input := []
  stopPending := false
  stopIn := none
  history := []
  params := Params.default

end Sys2Proof.Machine
end

