-- ==== Sys2Proof/Machine/Ops.lean ====
section
/-! DEFINITION. The named operations over registers, memory, streams, diagnostics and the run state. All reads and writes of
State go through them. The core raises no exception that changes registers or the pc (60_exceptions.md R180); what stands in
the place of taking one is `State.report` (R181), `State.stopWith` and `State.takeStop` (R187), and the trap entry
`State.trapEntry` (R189). A routine returns by completing its step (R190), so there is no return operation. -/

namespace Sys2Proof.Machine

/-! ### Field updates -/

/-- `x[r]` (R10, R21). -/
def State.reg (s : State) (r : RegIdx) : Word := s.regs[r.toNat]

/-- `x[r] <- v` (R10, R21). No register is hardwired (R20). -/
def State.setReg (s : State) (r : RegIdx) (v : Word) : State := { s with regs := s.regs.set r.toNat v }

/-- `pc <- target` (R10). -/
def State.setPc (s : State) (target : Word) : State := { s with pc := target }

/-- Write the condition-flag register. -/
def State.setCond (s : State) (c : Cond) : State := { s with cond := c }

/-- Replace the backing storage. -/
def State.setMem (s : State) (m : Memory) : State := { s with mem := m }

/-- Replace the host's remaining input. -/
def State.setInput (s : State) (cs : List InChar) : State := { s with input := cs }

/-- Append an event to the history (R37). -/
def State.emit (s : State) (e : Event) : State := { s with history := s.history ++ [e] }

/-- `run <- Halted; cause <- c` (R29, R30). -/
def State.stopWith (s : State) (c : StopCause) : State := { s with run := .halted, cause := c }

/-- Write the stop latch and the host's stop schedule. -/
def State.setStop (s : State) (pending : Bool) (after : Option Nat) : State :=
  { s with stopPending := pending, stopIn := after }

/-- Write the step's instruction address and instruction register (R39). -/
def State.setFetched (s : State) (ipc ir : Word) : State := { s with ipc := ipc, ir := ir }

/-! ### Backing storage (R53) -/

/-- What an unlisted address reads as: INIT_MEM's default (R73, D12). -/
def Memory.unlisted : Word := 0x0000#16

/-- The word at address k. -/
def Memory.read : Memory → Nat → Word
  | [], _ => Memory.unlisted
  | (k', v) :: m, k => if k = k' then v else Memory.read m k

/-- Put the cell (k, v) before the first higher address. -/
def Memory.insert (k : Nat) (v : Word) : Memory → Memory
  | [] => [(k, v)]
  | c :: m => if k < c.1 then (k, v) :: c :: m else c :: Memory.insert k v m

/-- Store v at address k, in canonical form: the value of an unlisted address is not listed. -/
def Memory.write (m : Memory) (k : Nat) (v : Word) : Memory :=
  let rest := m.filter (fun c => c.1 != k)
  if v = Memory.unlisted then rest else Memory.insert k v rest

/-- The canonical form: addresses below 0x10000 and strictly rising, no cell equal to an unlisted one. -/
def Memory.wf (m : Memory) : Bool :=
  decide (m.Pairwise (fun c d => c.1 < d.1)) && m.all (fun c => decide (c.1 < 0x10000) && c.2 != Memory.unlisted)

/-- `M[a]` read with no side effect (R11, R53). -/
def State.cell (s : State) (a : Word) : Word := Memory.read s.mem a.toNat

/-- `M[a] <- v` with no side effect (R11, R53). -/
def State.setCell (s : State) (a v : Word) : State := s.setMem (Memory.write s.mem a.toNat v)

/-! ### Bytes of a word -/

/-- `v[7:0]` (R34, R52). -/
def lowByte (v : Word) : Byte := v.extractLsb' 0 8

/-- `v[15:8]` (R156). -/
def highByte (v : Word) : Byte := v.extractLsb' 8 8

/-- `zext_16(c)` (R8, R33). -/
def zextByte (c : Byte) : Word := c.setWidth 16

/-! ### Streams (R33, R34) -/

/-- `InReady()`: the next character has arrived; false when no character remains (R33). -/
def State.inReady (s : State) : Bool :=
  match s.input with
  | [] => false
  | c :: _ => c.delay == 0

/-- `InWait()` of R151: hold until the next character has arrived, then take it. The hold changes nothing. `none` when
no character remains: the core holds for ever (I8). -/
def State.takeChar (s : State) : Option (Byte × State) :=
  match s.input with
  | [] => none
  | c :: rest => some (c.char, (s.setInput rest).emit (.inTake c.char))

/-- `OutPut(c)` (R34). -/
def State.outPut (s : State) (c : Byte) : State := s.emit (.outPut c)

/-- `OutPut` of each byte in order (R155, R157, R159). -/
def State.outPutAll (s : State) : List Byte → State
  | [] => s
  | c :: cs => (s.outPut c).outPutAll cs

/-! ### Diagnostics and the end of the run -/

/-- `report <Event>(info)`: a diagnostic event, no other state changes (R13, R181). -/
def State.report (s : State) (d : Diag) : State := s.emit (.diag d)

/-- `run <- Halted; cause <- Halt` (R61, R157). -/
def State.halt (s : State) : State := s.stopWith .halt

/-- The stop request is taken: `run <- Halted; cause <- Interrupted` (R187). -/
def State.takeStop (s : State) : State := s.stopWith .interrupted

/-- The host raises stop_req: it sets the latch, which the core never clears (R35, R186). -/
def State.raiseStop (s : State) : State := (s.setStop true none).emit .stopReq

/-- The host's part of a step that executed an instruction: it may have raised stop_req meanwhile (R35, R188). -/
def State.hostTick (s : State) : State :=
  match s.stopIn with
  | none => s
  | some 0 => s.raiseStop
  | some (k + 1) => s.setStop s.stopPending (some k)

/-- Trap entry: the link write of R7 when TRAP_LINKS_R7 is true; nothing else is saved, no flag is written (R150, R189). -/
def State.trapEntry (s : State) : State := if s.params.trapLinksR7 then s.setReg 7#3 s.pc else s

/-! ### The two memory entry points (R55, R59) -/

/-- KBSR after a poll that found a character (R56). -/
def kbsrReadyValue (p : Params) (old : Word) : Word :=
  match p.kbsrLowBits with
  | .preserve => old ||| 0x8000#16
  | .clear => 0x8000#16

/-- KBSR after a poll that found none (R56). -/
def kbsrIdleValue (p : Params) (old : Word) : Word :=
  match p.kbsrLowBits with
  | .preserve => old &&& 0x7FFF#16
  | .clear => 0x0000#16

/-- `KbsrPoll()` (R56). It never blocks (C7). A poll that finds the next character not arrived uses up one of the host's
draws. -/
def State.kbsrPoll (s : State) : State :=
  match s.input with
  | [] => s.setCell Config.kbsr (kbsrIdleValue s.params (s.cell Config.kbsr))
  | ⟨0, c⟩ :: rest =>
    let s1 := (s.setInput rest).emit (.inTake c)
    let s2 := s1.setCell Config.kbdr (zextByte c)
    s2.setCell Config.kbsr (kbsrReadyValue s.params (s2.cell Config.kbsr))
  | ⟨k + 1, c⟩ :: rest =>
    (s.setInput (⟨k, c⟩ :: rest)).setCell Config.kbsr (kbsrIdleValue s.params (s.cell Config.kbsr))

/-- The state after `MemRead(a)`: a read of KBSR polls the keyboard, no other read has an effect (R55). -/
def State.afterRead (s : State) (a : Word) : State := if a = Config.kbsr then s.kbsrPoll else s

/-- `MemRead(a)` (R55): the word read and the state after. -/
def State.memRead (s : State) (a : Word) : Word × State := ((s.afterRead a).cell a, s.afterRead a)

/-- `MemWrite(a, v)` (R59): DDR sends (R60), MCR may halt (R61), the protected region drops and reports (R62), every
other address stores (R63). -/
def State.memWrite (s : State) (a v : Word) : State :=
  if a = Config.ddr then s.outPut (lowByte v)
  else if a = Config.mcr then (if v.getLsbD 15 = false then s.halt else s)
  else if a ≤ Config.protectedTop then s.report (.protWrite s.ipc a v)
  else s.setCell a v

end Sys2Proof.Machine
end

