-- ==== Sys2Proof/Machine/Flags.lean ====
section
/-! DEFINITION. The condition flags: their encoding (10_state.md R26), the flag-update rule (R27), the register write that
sets them (R28), and the branch test (42_control.md R141). There is no carry or overflow flag (R110). -/

namespace Sys2Proof.Machine

/-- The one-hot encoding: N = 0b100, Z = 0b010, P = 0b001 (R26). -/
def Cond.bits : Cond → BitVec 3
  | .n => 0b100#3
  | .z => 0b010#3
  | .p => 0b001#3

/-- The flag of a value (R27). -/
def flagOf (v : Word) : Cond := if v = 0x0000#16 then .z else if v.getLsbD 15 then .n else .p

/-- `setcc(v)` (R27). -/
def State.setcc (s : State) (v : Word) : State := s.setCond (flagOf v)

/-- `x[r] <- v; setcc(v)`: every register write but the link writes of R7 (R28, C5). -/
def State.writeResult (s : State) (r : RegIdx) (v : Word) : State := (s.setReg r v).setcc v

/-- The branch mask `ir[11:9]` of BR (R87). -/
def branchMask (n z p : Bool) : BitVec 3 := BitVec.ofBool n ++ BitVec.ofBool z ++ BitVec.ofBool p

/-- `(cond AND ir[11:9]) != 0` (R141). -/
def branchTaken (n z p : Bool) (c : Cond) : Bool := (c.bits &&& branchMask n z p) != 0b000#3

end Sys2Proof.Machine
end

