-- ==== Sys2Proof/Machine/Operands.lean ====
section
/-! DEFINITION. Immediates and the three effective-address computations (30_encoding.md R89, 41_data_movement.md R120). The
pc they use is already incremented (10_state.md R24, R39); all sums wrap modulo 2^16 (00_scope.md R9). -/

namespace Sys2Proof.Machine

/-- `sext_5` (R8, R89). -/
def sext5 (f : BitVec 5) : Word := f.signExtend 16

/-- `sext_6` (R8, R89). -/
def sext6 (f : BitVec 6) : Word := f.signExtend 16

/-- `sext_9` (R8, R89). -/
def sext9 (f : BitVec 9) : Word := f.signExtend 16

/-- `sext_11` (R8, R89). -/
def sext11 (f : BitVec 11) : Word := f.signExtend 16

/-- PC-relative: `pc + sext_9(off)` (R120). -/
def State.eaPcRel (s : State) (off9 : BitVec 9) : Word := s.pc + sext9 off9

/-- PC-relative with the 11-bit offset of JSR (R91, R143). -/
def State.eaPcRel11 (s : State) (off11 : BitVec 11) : Word := s.pc + sext11 off11

/-- Base + offset: `x[BaseR] + sext_6(off)` (R120). -/
def State.eaBase (s : State) (base : RegIdx) (off6 : BitVec 6) : Word := s.reg base + sext6 off6

/-- Indirect: `MemRead(pc + sext_9(off))`, the pointer and the state after its read (R120). -/
def State.eaIndirect (s : State) (off9 : BitVec 9) : Word × State := s.memRead (s.eaPcRel off9)

end Sys2Proof.Machine
end

