-- ==== Sys2Proof/Machine/Control.lean ====
section
/-! DEFINITION. BR, JMP, JSR, JSRR (42_control.md R140-R144). None writes cond; there are no delay slots (R140). -/

namespace Sys2Proof.Machine

open Host (Outcome)

/-- BR (R141). -/
def execBr (n z p : Bool) (off9 : BitVec 9) (s : State) : Outcome State Fault Refusal :=
  .next (if branchTaken n z p s.cond then s.setPc (s.eaPcRel off9) else s)

/-- JMP (R142). -/
def execJmp (base : RegIdx) (s : State) : Outcome State Fault Refusal :=
  .next (s.setPc (s.reg base))

/-- The link write `x[7] <- pc` of JSR and JSRR, without flags (R143, R144, C5). -/
def State.link (s : State) : State := s.setReg 7#3 s.pc

/-- JSR (R143). -/
def execJsr (off11 : BitVec 11) (s : State) : Outcome State Fault Refusal :=
  .next (s.link.setPc (s.link.eaPcRel11 off11))

/-- JSRR: with JSRR_LINK_FIRST the base is read after the link write, else before it (R144). -/
def execJsrr (base : RegIdx) (s : State) : Outcome State Fault Refusal :=
  .next (if s.params.jsrrLinkFirst then s.link.setPc (s.link.reg base) else s.link.setPc (s.reg base))

end Sys2Proof.Machine
end

