-- ==== Sys2Proof/Machine/DataMovement.lean ====
section
/-! DEFINITION. LD, LDI, LDR, LEA, ST, STI, STR (41_data_movement.md R121-R127). Every access goes through `memRead` or
`memWrite` (20_memory.md R65), in the order of R66. -/

namespace Sys2Proof.Machine

open Host (Outcome)

/-- A load from ea into dr: `v <- MemRead(ea); x[Rd] <- v; setcc(v)` (R121-R123). -/
def State.loadInto (s : State) (dr : RegIdx) (ea : Word) : State :=
  (s.memRead ea).2.writeResult dr (s.memRead ea).1

/-- LD (R121). -/
def execLd (dr : RegIdx) (off9 : BitVec 9) (s : State) : Outcome State Fault Refusal :=
  .next (s.loadInto dr (s.eaPcRel off9))

/-- LDI: the pointer read, then the data read (R122). -/
def execLdi (dr : RegIdx) (off9 : BitVec 9) (s : State) : Outcome State Fault Refusal :=
  .next ((s.eaIndirect off9).2.loadInto dr (s.eaIndirect off9).1)

/-- LDR; the base is read before the write of dr (R123). -/
def execLdr (dr base : RegIdx) (off6 : BitVec 6) (s : State) : Outcome State Fault Refusal :=
  .next (s.loadInto dr (s.eaBase base off6))

/-- LEA: the address itself, with flags and without a memory access (R124). -/
def execLea (dr : RegIdx) (off9 : BitVec 9) (s : State) : Outcome State Fault Refusal :=
  .next (s.writeResult dr (s.eaPcRel off9))

/-- ST (R125). -/
def execSt (sr : RegIdx) (off9 : BitVec 9) (s : State) : Outcome State Fault Refusal :=
  .next (s.memWrite (s.eaPcRel off9) (s.reg sr))

/-- STI: the pointer read, then the write (R126). -/
def execSti (sr : RegIdx) (off9 : BitVec 9) (s : State) : Outcome State Fault Refusal :=
  .next ((s.eaIndirect off9).2.memWrite (s.eaIndirect off9).1 ((s.eaIndirect off9).2.reg sr))

/-- STR (R127). -/
def execStr (sr base : RegIdx) (off6 : BitVec 6) (s : State) : Outcome State Fault Refusal :=
  .next (s.memWrite (s.eaBase base off6) (s.reg sr))

end Sys2Proof.Machine
end

