-- ==== Sys2Proof/Machine/Operate.lean ====
section
/-! DEFINITION. ADD, AND and NOT (40_operate.md R110-R115). Both sources are read before the destination is written. -/

namespace Sys2Proof.Machine

open Host (Outcome)

/-- ADD, register mode (R111). -/
def execAddReg (dr sr1 sr2 : RegIdx) (s : State) : Outcome State Fault Refusal :=
  .next (s.writeResult dr (s.reg sr1 + s.reg sr2))

/-- ADD, immediate mode (R112). -/
def execAddImm (dr sr1 : RegIdx) (imm5 : BitVec 5) (s : State) : Outcome State Fault Refusal :=
  .next (s.writeResult dr (s.reg sr1 + sext5 imm5))

/-- AND, register mode (R113). -/
def execAndReg (dr sr1 sr2 : RegIdx) (s : State) : Outcome State Fault Refusal :=
  .next (s.writeResult dr (s.reg sr1 &&& s.reg sr2))

/-- AND, immediate mode (R114). -/
def execAndImm (dr sr1 : RegIdx) (imm5 : BitVec 5) (s : State) : Outcome State Fault Refusal :=
  .next (s.writeResult dr (s.reg sr1 &&& sext5 imm5))

/-- NOT (R115). -/
def execNot (dr sr1 : RegIdx) (s : State) : Outcome State Fault Refusal :=
  .next (s.writeResult dr (~~~ s.reg sr1))

end Sys2Proof.Machine
end

