-- ==== Sys2Proof/Machine/Reserved.lean ====
section
/-! DEFINITION. RTI and RES: legal to execute, they report BadOpcode and change nothing else (30_encoding.md R93,
43_trap_and_reserved.md R161, R162). The pc keeps the fetch increment (D14). -/

namespace Sys2Proof.Machine

open Host (Outcome)

/-- RTI (R161). -/
def execRti (s : State) : Outcome State Fault Refusal := .next (s.report (.badOpcode s.ipc 0x8#4 s.ir))

/-- RES (R162). -/
def execRes (s : State) : Outcome State Fault Refusal := .next (s.report (.badOpcode s.ipc 0xD#4 s.ir))

end Sys2Proof.Machine
end

