-- ==== Sys2Proof/Machine/Traps.lean ====
section
/-! DEFINITION. TRAP and its eight routines (43_trap_and_reserved.md R150-R160). A routine is a built-in action inside the
TRAP's step (60_exceptions.md R189); it ends by completing the step and leaves the pc after the TRAP. -/

namespace Sys2Proof.Machine

open Host (Outcome)

/-! ### Reading routines -/

/-- `c <- InWait()`, then the rest of the routine; with the input exhausted the core holds in s for ever (R151, I8). -/
def State.waitChar (s : State) (k : Byte → State → State) : Outcome State Fault Refusal :=
  match s.takeChar with
  | none => .fault (.inputExhausted s)
  | some (c, t) => .next (k c t)

/-- GETC's action (R152). -/
def routineGetc (s : State) : Outcome State Fault Refusal :=
  s.waitChar fun c t => t.writeResult 0#3 (zextByte c)

/-- IN's action: prompt, character, echo (R155). -/
def routineIn (s : State) : Outcome State Fault Refusal :=
  (s.outPutAll s.params.inPrompt).waitChar fun c t => (t.outPut c).writeResult 0#3 (zextByte c)

/-! ### String routines -/

/-- The loop of PUTS and PUTSP from address a; `send w` outputs the characters of the word w. `fuel` bounds the number of
words; the routines give it the number of words from a to 0xFFFF. -/
def stringLoop (send : Word → State → State) : Nat → Word → State → State
  | 0, _, s => s
  | fuel + 1, a, s =>
    let w := (s.memRead a).1
    let t := (s.memRead a).2
    if w = 0x0000#16 then t
    else if a = 0xFFFF#16 then send w t
    else stringLoop send fuel (a + 1#16) (send w t)

/-- The number of words from a to the top of memory. -/
def wordsToTop (a : Word) : Nat := 0x10000 - a.toNat

/-- The whole string from a. -/
def printString (send : Word → State → State) (a : Word) (s : State) : State := stringLoop send (wordsToTop a) a s

/-- PUTS sends `w[7:0]` (R154). -/
def sendWord (w : Word) (s : State) : State := s.outPut (lowByte w)

/-- PUTSP sends `w[7:0]`, then `w[15:8]` if it is not zero (R156). -/
def sendPacked (w : Word) (s : State) : State :=
  if highByte w = 0x00#8 then s.outPut (lowByte w) else (s.outPut (lowByte w)).outPut (highByte w)

/-- PUTS's action (R154). -/
def routinePuts (s : State) : State := printString sendWord (s.reg 0#3) s

/-- PUTSP's action (R156). -/
def routinePutsp (s : State) : State := printString sendPacked (s.reg 0#3) s

/-! ### OUT and HALT -/

/-- OUT's action (R153). -/
def routineOut (s : State) : State := s.outPut (lowByte (s.reg 0#3))

/-- HALT's action (R157). -/
def routineHalt (s : State) : State := (s.outPutAll s.params.haltBanner).halt

/-! ### Decimal input: the parameter DEC_IN and its default -/

/-- A blank of R158: space, tab, LF, CR. -/
def isBlank (c : Byte) : Bool := c == 0x20#8 || c == 0x09#8 || c == 0x0A#8 || c == 0x0D#8

/-- A digit '0' to '9' of R158. -/
def isDigit (c : Byte) : Bool := decide (0x30#8 ≤ c) && decide (c ≤ 0x39#8)

/-- `v * 10 + (c - 0x30)` modulo 2^16 (R158). -/
def addDigit (v : Word) (c : Byte) : Word := v * 10#16 + (zextByte c - 0x30#16)

/-- The digit loop of R158 with the value so far: the value, and how many characters it takes, the terminating non-digit
included. `none` when the characters end before a non-digit. -/
def readDigits (v : Word) : List Byte → Option (Word × Nat)
  | [] => none
  | c :: cs =>
    if isDigit c then (readDigits (addDigit v c) cs).map (fun r => (r.1, r.2 + 1)) else some (v, 1)

/-- The default of DEC_IN (R158): skip blanks, then digits. -/
def decIn : List Byte → Option (Word × Nat)
  | [] => none
  | c :: cs => if isBlank c then (decIn cs).map (fun r => (r.1, r.2 + 1)) else readDigits 0x0000#16 (c :: cs)

/-- n characters taken one after the other; fewer when the input ends. -/
def State.takeMany (s : State) : Nat → State
  | 0 => s
  | k + 1 =>
    match s.takeChar with
    | none => s
    | some (_, t) => t.takeMany k

/-- INU16's action with the parse function `parse` (R158, DEC_IN): the characters it takes are consumed, the value goes to
R0 with its flags. `parse` answers none when it still waits after the last character of the host; the core then holds with
all of them taken (log entry 16). -/
def routineInu16 (parse : List Byte → Option (Word × Nat)) (s : State) : Outcome State Fault Refusal :=
  match parse (s.input.map InChar.char) with
  | none => .fault (.inputExhausted (s.takeMany s.input.length))
  | some (v, k) => .next ((s.takeMany k).writeResult 0#3 v)

/-! ### Decimal output: the parameter DEC_OUT and its default -/

/-- The decimal digits of n, most significant first, at most `fuel` of them. -/
def decDigits : Nat → Nat → List Byte
  | 0, _ => []
  | fuel + 1, n =>
    if n < 10 then [BitVec.ofNat 8 (0x30 + n)] else decDigits fuel (n / 10) ++ [BitVec.ofNat 8 (0x30 + n % 10)]

/-- The default of DEC_OUT (R159): a word has at most five digits. -/
def decOut (v : Word) : List Byte := decDigits 5 v.toNat

/-- OUTU16's action with the print function `print` (R159, DEC_OUT). -/
def routineOutu16 (print : Word → List Byte) (s : State) : State := s.outPutAll (print (s.reg 0#3))

/-! ### The rows of the table -/

/-- TRAP x20 (R150, R152). -/
def execTrapGetc (s : State) : Outcome State Fault Refusal := routineGetc s.trapEntry

/-- TRAP x21 (R150, R153). -/
def execTrapOut (s : State) : Outcome State Fault Refusal := .next (routineOut s.trapEntry)

/-- TRAP x22 (R150, R154). -/
def execTrapPuts (s : State) : Outcome State Fault Refusal := .next (routinePuts s.trapEntry)

/-- TRAP x23 (R150, R155). -/
def execTrapIn (s : State) : Outcome State Fault Refusal := routineIn s.trapEntry

/-- TRAP x24 (R150, R156). -/
def execTrapPutsp (s : State) : Outcome State Fault Refusal := .next (routinePutsp s.trapEntry)

/-- TRAP x25 (R150, R157). -/
def execTrapHalt (s : State) : Outcome State Fault Refusal := .next (routineHalt s.trapEntry)

/-- TRAP x26 (R150, R158). -/
def execTrapInu16 (s : State) : Outcome State Fault Refusal := routineInu16 decIn s.trapEntry

/-- TRAP x27 (R150, R159). -/
def execTrapOutu16 (s : State) : Outcome State Fault Refusal := .next (routineOutu16 decOut s.trapEntry)

/-- TRAP with any vector, as R150 dispatches it. The decoder gives this row only vectors outside 0x20-0x27, whose meaning is
the last case: BadTrap, nothing else (R160). -/
def execTrap (vect : Byte) (s : State) : Outcome State Fault Refusal :=
  if vect = 0x20#8 then routineGetc s.trapEntry
  else if vect = 0x21#8 then .next (routineOut s.trapEntry)
  else if vect = 0x22#8 then .next (routinePuts s.trapEntry)
  else if vect = 0x23#8 then routineIn s.trapEntry
  else if vect = 0x24#8 then .next (routinePutsp s.trapEntry)
  else if vect = 0x25#8 then .next (routineHalt s.trapEntry)
  else if vect = 0x26#8 then routineInu16 decIn s.trapEntry
  else if vect = 0x27#8 then .next (routineOutu16 decOut s.trapEntry)
  else .next (s.report (.badTrap s.ipc vect s.ir))

end Sys2Proof.Machine
end

