-- ==== Sys2Proof/Machine/Fetch.lean ====
section
/-! DEFINITION. What a step does around an instruction (10_state.md R39): the fetch through `memRead`, the trace, the fetch
increment, and the end of the step. -/

namespace Sys2Proof.Machine

open Host (Outcome)

/-- `if TRACE_ENABLED then emit Trace(ipc, ir, x[0..7], cond)`, before the increment and the instruction (R39, R194). -/
def State.traceFetch (s : State) : State :=
  if s.params.traceEnabled then s.emit (.trace s.ipc s.ir s.regs s.cond) else s

/-- The fetch: `ipc <- pc; ir <- MemRead(pc)`, the trace, `pc <- pc + 1` (R25, R39, R65). -/
def State.fetch (s : State) : State :=
  let t := ((s.memRead s.pc).2.setFetched s.pc (s.memRead s.pc).1).traceFetch
  t.setPc (t.pc + 1#16)

/-- The end of a step that executed an instruction: the host may have raised stop_req meanwhile (R35, R188). -/
def finishStep : Outcome State Fault Refusal → Outcome State Fault Refusal
  | .next t => .next t.hostTick
  | .fault f => .fault f
  | .refused r => .refused r

end Sys2Proof.Machine
end

