-- ==== Sys2Proof/Machine/Step.lean ====
section
/-! DEFINITION. `Step()` of 10_state.md R39, and the host's way to place one instruction for the next step. -/

namespace Sys2Proof.Machine

/-- One step (R39), with the priority of R188: Halted is terminal and changes nothing (R196); then the stop request
(R187); then fetch, decode and execute one whole instruction. -/
def step (s : State) : Host.Outcome State Fault Refusal :=
  match s.run with
  | .halted => .next s
  | .running =>
    if s.stopPending then .next s.takeStop
    else finishStep (exec (decode s.fetch.ir) s.fetch)

/-- s with the instruction whose `nbits` bits are `w` in the memory cell at the pc, where the next step fetches. -/
def State.withFetchWord (s : State) (nbits w : Nat) : State := s.setCell s.pc (BitVec.ofNat 16 (w % 2 ^ nbits))

end Sys2Proof.Machine
end

