-- ==== Sys2Proof/Machine/Load.lean ====
section
/-! DEFINITION. The load interface, before the run only (10_state.md R37; 70_reset_and_hazards.md R205, R208, R209): what the
host's loader leaves in the core. It writes backing storage directly, with no protection and no I/O effect (D28). -/

namespace Sys2Proof.Machine

/-- Words placed from address k upward; none beyond 0xFFFF (R208, I21). -/
def Memory.place (m : Memory) (k : Nat) : List Word → Memory
  | [] => m
  | w :: ws => if k < 0x10000 then Memory.place (Memory.write m k w) (k + 1) ws else m

/-- The words of an image file: 16-bit big-endian (R209). A file that ends inside a word is unreadable (R185). -/
def imageWords : List Byte → Except Refusal (List Word)
  | [] => .ok []
  | [_] => .error .badImage
  | hi :: lo :: rest =>
    match imageWords rest with
    | .error r => .error r
    | .ok ws => .ok ((hi ++ lo : BitVec 16) :: ws)

/-- The state when the run begins (R38, R205): the image from `base` upward over INIT_MEM, the pc at ENTRY_PC, the host's
input and parameters. An empty image is refused (R185, R208). -/
def State.load (params : Params) (initMem : Memory) (base : Word) (image : List Word) (entryPc : Word)
    (input : List InChar) (stopPending : Bool) (stopIn : Option Nat) : Except Refusal State :=
  match image with
  | [] => .error .badImage
  | _ :: _ => .ok
    { State.reset with
      mem := Memory.place initMem base.toNat image
      pc := entryPc
      input := input
      stopPending := stopPending
      stopIn := stopIn
      params := params }

end Sys2Proof.Machine
end

