-- ==== Sys2Proof/Machine/Ports.lean ====
section
/-! DEFINITION. The ports of 10_state.md R37 as views of the state, and the logs as views of the one event history. -/

namespace Sys2Proof.Machine

/-- Port in_ready: `InReady()` of R33. -/
def State.inReadyPort (s : State) : Bool := s.inReady

/-- Port in_char: the next input character; meaningful when in_ready is 1. -/
def State.inCharPort (s : State) : Option Byte := s.input.head?.map InChar.char

/-- Port halted: 1 when run = Halted (R37, R196). -/
def State.haltedPort (s : State) : Bool := s.run == .halted

/-- The code of port stop_cause: 0 None, 1 Halt, 2 Interrupted (R37). -/
def StopCause.code : StopCause → BitVec 2
  | .none => 0#2
  | .halt => 1#2
  | .interrupted => 2#2

/-- Port stop_cause (R37). -/
def State.stopCausePort (s : State) : BitVec 2 := s.cause.code

/-- The code of a diagnostic event (R181). -/
def Diag.code : Diag → Nat
  | .protWrite .. => 1
  | .badOpcode .. => 2
  | .badTrap .. => 3

/-- The character an event took from the input (port in_take). -/
def Event.taken? : Event → Option Byte
  | .inTake c => some c
  | _ => none

/-- The byte an event sent (port out_char). -/
def Event.sent? : Event → Option Byte
  | .outPut c => some c
  | _ => none

/-- The diagnostic of an event (port diag). -/
def Event.diag? : Event → Option Diag
  | .diag d => some d
  | _ => none

/-- The event is a trace record (port trace). -/
def Event.isTrace : Event → Bool
  | .trace .. => true
  | _ => false

/-- The characters the core took, in order (R33). -/
def State.takenLog (s : State) : List Byte := s.history.filterMap Event.taken?

/-- The output log (R34). -/
def State.outputLog (s : State) : List Byte := s.history.filterMap Event.sent?

/-- The diagnostic output (R36, R181). -/
def State.diagLog (s : State) : List Diag := s.history.filterMap Event.diag?

/-- The trace output (R36, R194). -/
def State.traceLog (s : State) : List Event := s.history.filter Event.isTrace

end Sys2Proof.Machine
end

