-- ==== Sys2Proof/Safety.lean ====
section
/-! DEFINITION. What the claims call a good state and a protected cell. -/

namespace Sys2Proof.Machine

/-- The invariant of the machine: memory is in canonical form, and the stop cause is None exactly while the run goes on
(10_state.md R30). -/
def State.Inv (s : State) : Prop := s.mem.wf = true ∧ (s.cause = .none ↔ s.run = .running)

/-- The cells no instruction can change: the protected region (R62), DDR (R60) and MCR (R61). -/
def Protected (a : Word) : Prop := a.toNat ≤ 0x2FFF ∨ a = 0xFE06#16 ∨ a = 0xFFFE#16

end Sys2Proof.Machine
end

