-- ==== Sys2Proof/Certificates/Slice0/Obligations.lean ====
section
/-! DEFINITION. The statements for the provers, one `Obligations.<Name>` each, and the few notions they are written in. A
statement about an instruction gives its row of the opcode table (which words decode to it), that `exec` answers a next
state, what that state holds, and what it leaves unchanged. -/

open Sys2Proof Sys2Proof.Machine

/-! ### The notions of the statements -/

/-- The field of n bits of w from bit lo up: `w[lo+n-1:lo]` (00_scope.md R7). -/
def Sys2Proof.Spec.bits (w : Word) (lo n : Nat) : BitVec n := (w >>> lo).setWidth n

/-- A signed field as a 16-bit displacement: the word congruent to its two's-complement value (R8, R89). -/
def Sys2Proof.Spec.disp {n : Nat} (f : BitVec n) : Word := BitVec.ofInt 16 f.toInt

/-- A row of the opcode table: every word that matches and has the fields decodes to i. -/
def Sys2Proof.Spec.Row (mask pattern : Word) (fields : Word → Prop) (i : Instr) : Prop :=
  ∀ w : Word, w &&& mask = pattern → fields w → decode w = i

/-- The flag-update rule of R27: Z for 0, N when the top bit is set, P otherwise. -/
def Sys2Proof.Spec.FlagRule (v : Word) (c : Cond) : Prop :=
  (v.toNat = 0 → c = .z) ∧ (0x8000 ≤ v.toNat → c = .n) ∧ (0 < v.toNat → v.toNat < 0x8000 → c = .p)

/-- A part of the state that an instruction may change. -/
inductive Sys2Proof.Spec.Part where
  | reg (r : RegIdx)
  | pc
  | flags
  | cell (a : Word)
  | runState
  | input
  | history

open Sys2Proof.Spec Sys2Proof.Spec.Part

/-- The frame: t agrees with s on every part that is not listed, and always on ipc, ir, the stop latch and schedule and the
parameters. `runState` is run and cause. -/
def Sys2Proof.Spec.SameBut (parts : List Part) (s t : State) : Prop :=
  (∀ r, reg r ∉ parts → t.reg r = s.reg r) ∧
  (pc ∉ parts → t.pc = s.pc) ∧
  (flags ∉ parts → t.cond = s.cond) ∧
  (∀ a, cell a ∉ parts → t.cell a = s.cell a) ∧
  (runState ∉ parts → t.run = s.run ∧ t.cause = s.cause) ∧
  (input ∉ parts → t.input = s.input) ∧
  (history ∉ parts → t.history = s.history) ∧
  t.ipc = s.ipc ∧ t.ir = s.ir ∧ t.stopPending = s.stopPending ∧ t.stopIn = s.stopIn ∧ t.params = s.params

/-- What `MemWrite(a, v)` does (R59-R63): t is the state after it. -/
def Sys2Proof.Spec.Stored (s : State) (a v : Word) (t : State) : Prop :=
  if a = 0xFE06#16 then
    SameBut [history] s t ∧ t.history = s.history ++ [.outPut (bits v 0 8)]
  else if a = 0xFFFE#16 then
    if 0x8000 ≤ v.toNat then SameBut [] s t
    else SameBut [runState] s t ∧ t.run = .halted ∧ t.cause = .halt
  else if a.toNat ≤ 0x2FFF then
    SameBut [history] s t ∧ t.history = s.history ++ [.diag (.protWrite s.ipc a v)]
  else SameBut [cell a] s t ∧ t.cell a = v

/-- R7 after a TRAP with a valid vector: the link when TRAP_LINKS_R7 is true, else unchanged (R150). -/
def Sys2Proof.Spec.LinkedR7 (s t : State) : Prop :=
  t.reg 7#3 = if s.params.trapLinksR7 then s.pc else s.reg 7#3

/-- The state in which the routine of a TRAP with a valid vector starts (R150). -/
def Sys2Proof.Spec.linked (s : State) : State := if s.params.trapLinksR7 then s.setReg 7#3 s.pc else s

/-- The loop of R154 and R156: from address a in state s the routine ends in t; `send w` is what it outputs for w. -/
inductive Sys2Proof.Spec.StringRun (send : Word → List Byte) : Word → State → State → Prop where
  | zero {a : Word} {s : State} (h : (s.memRead a).1 = 0x0000#16) : StringRun send a s (s.memRead a).2
  | top {s : State} (h : (s.memRead 0xFFFF#16).1 ≠ 0x0000#16) :
      StringRun send 0xFFFF#16 s
        { (s.memRead 0xFFFF#16).2 with
          history := (s.memRead 0xFFFF#16).2.history ++ (send (s.memRead 0xFFFF#16).1).map Event.outPut }
  | more {a : Word} {s t : State} (h : (s.memRead a).1 ≠ 0x0000#16) (ha : a ≠ 0xFFFF#16)
      (next : StringRun send (a + 1#16)
        { (s.memRead a).2 with history := (s.memRead a).2.history ++ (send (s.memRead a).1).map Event.outPut } t) :
      StringRun send a s t

/-- A decimal digit '0' to '9' (R158). -/
def Sys2Proof.Spec.Digit (c : Byte) : Prop := 0x30 ≤ c.toNat ∧ c.toNat ≤ 0x39

/-- A blank: space, tab, LF, CR (R158). -/
def Sys2Proof.Spec.Blank (c : Byte) : Prop := c = 0x20#8 ∨ c = 0x09#8 ∨ c = 0x0A#8 ∨ c = 0x0D#8

/-- The number that a string of digits writes. -/
def Sys2Proof.Spec.decimal (ds : List Byte) : Nat := ds.foldl (fun v c => v * 10 + (c.toNat - 0x30)) 0

/-- The address and value of the one MemWrite of an instruction, if it makes one (R66, R125-R127). -/
def Sys2Proof.Spec.storeOf (i : Instr) (s : State) : Option (Word × Word) :=
  match i with
  | .st sr off9 => some (s.pc + disp off9, s.reg sr)
  | .sti sr off9 => some ((s.memRead (s.pc + disp off9)).1, s.reg sr)
  | .str sr base off6 => some (s.reg base + disp off6, s.reg sr)
  | .addReg .. | .addImm .. | .andReg .. | .andImm .. | .notReg .. | .ld .. | .ldi .. | .ldr .. | .lea .. => none
  | .br .. | .jmp .. | .jsr .. | .jsrr .. | .rti | .res | .trap .. => none
  | .trapGetc | .trapOut | .trapPuts | .trapIn | .trapPutsp | .trapHalt | .trapInu16 | .trapOutu16 => none

/-- The vectors of the routines that read a value into R0: GETC, IN, INU16. -/
def Sys2Proof.Spec.ReadVector (vect : Byte) : Prop := vect = 0x20#8 ∨ vect = 0x23#8 ∨ vect = 0x26#8

/-- The instruction gives the register r its result, and its flags reflect the value (R28). -/
def Sys2Proof.Spec.Results (i : Instr) (r : RegIdx) : Prop :=
  match i with
  | .addReg dr _ _ | .addImm dr _ _ | .andReg dr _ _ | .andImm dr _ _ | .notReg dr _ => r = dr
  | .ld dr _ | .ldi dr _ | .ldr dr _ _ | .lea dr _ => r = dr
  | .trapGetc | .trapIn | .trapInu16 => r = 0#3
  | .trap vect => r = 0#3 ∧ ReadVector vect
  | .br .. | .st .. | .sti .. | .str .. | .jmp .. | .jsr .. | .jsrr .. | .rti | .res => False
  | .trapOut | .trapPuts | .trapPutsp | .trapHalt | .trapOutu16 => False

/-- Whether R7 is a link register of the instruction: JSR, JSRR, and with TRAP_LINKS_R7 every valid TRAP (R22). -/
def Sys2Proof.Spec.linksR7 (i : Instr) (p : Params) : Prop :=
  match i with
  | .jsr _ | .jsrr _ => True
  | .trap vect => p.trapLinksR7 = true ∧ 0x20 ≤ vect.toNat ∧ vect.toNat ≤ 0x27
  | .trapGetc | .trapOut | .trapPuts | .trapIn | .trapPutsp | .trapHalt | .trapInu16 | .trapOutu16 =>
    p.trapLinksR7 = true
  | .addReg .. | .addImm .. | .andReg .. | .andImm .. | .notReg .. | .ld .. | .ldi .. | .ldr .. | .lea .. => False
  | .br .. | .st .. | .sti .. | .str .. | .jmp .. | .rti | .res => False

/-- s without the trace: TRACE_ENABLED false and no trace record in the history. -/
def Sys2Proof.Spec.untraced (s : State) : State :=
  { s with
    params := { s.params with traceEnabled := false }
    history := s.history.filter (fun e => !e.isTrace) }

/-! ### Reset and load -/

/-- R38 with the spec's decisions D12, D13, D16, D17 for the core with nothing loaded. -/
def Obligations.ResetLeavesTheSpecState : Prop :=
  (∀ r, State.reset.reg r = 0x0000#16) ∧ State.reset.cond = .z ∧ State.reset.pc = 0x3000#16 ∧
  State.reset.run = .running ∧ State.reset.cause = .none ∧ State.reset.stopPending = false ∧
  (∀ a, State.reset.cell a = 0x0000#16) ∧ State.reset.outputLog = [] ∧ State.reset.diagLog = [] ∧
  State.reset.traceLog = []

/-- R38, R73: the state when a run begins, for every image, INIT_MEM, entry point, input and parameters. -/
def Obligations.LoadBeginsTheRun : Prop :=
  ∀ (p : Params) (initMem : Memory) (base : Word) (image : List Word) (entry : Word) (input : List InChar)
    (pending : Bool) (after : Option Nat), image ≠ [] →
    ∃ t, State.load p initMem base image entry input pending after = .ok t ∧
      (∀ r, t.reg r = 0x0000#16) ∧ t.cond = .z ∧ t.pc = entry ∧ t.run = .running ∧ t.cause = .none ∧
      t.stopPending = pending ∧ t.input = input ∧ t.history = [] ∧ t.params = p ∧
      (∀ (k : Nat) (h : k < image.length), base.toNat + k < 0x10000 → t.cell (base + BitVec.ofNat 16 k) = image[k]) ∧
      (∀ a : Word, a.toNat < base.toNat ∨ base.toNat + image.length ≤ a.toNat →
        t.cell a = Memory.read initMem a.toNat ∧ (initMem = [] → t.cell a = 0x0000#16))

/-- R185, R208: an empty image is refused before the run. -/
def Obligations.EmptyImageIsRefused : Prop :=
  ∀ (p : Params) (initMem : Memory) (base entry : Word) (input : List InChar) (pending : Bool) (after : Option Nat),
    State.load p initMem base [] entry input pending after = .error .badImage

/-- R209: the image file is big-endian words. -/
def Obligations.ImageFileIsBigEndian : Prop :=
  ∀ ws : List Word, imageWords (ws.flatMap (fun w => [bits w 8 8, bits w 0 8])) = .ok ws

/-! ### Encoding -/

/-- The example words of 40_operate.md to 43_trap_and_reserved.md. -/
def Obligations.SampleWordsDecode : Prop :=
  decode 0x1283#16 = .addReg 1#3 2#3 3#3 ∧ decode 0x1025#16 = .addImm 0#3 0#3 5#5 ∧
  decode 0x54C4#16 = .andReg 2#3 3#3 4#3 ∧ decode 0x5020#16 = .andImm 0#3 0#3 0#5 ∧
  decode 0x92BF#16 = .notReg 1#3 2#3 ∧ decode 0x2410#16 = .ld 2#3 0x10#9 ∧ decode 0xA602#16 = .ldi 3#3 2#9 ∧
  decode 0x697F#16 = .ldr 4#3 5#3 0x3F#6 ∧ decode 0xE3FD#16 = .lea 1#3 0x1FD#9 ∧ decode 0x3001#16 = .st 0#3 1#9 ∧
  decode 0xB204#16 = .sti 1#3 4#9 ∧ decode 0x7180#16 = .str 0#3 6#3 0#6 ∧
  decode 0x05FE#16 = .br false true false 0x1FE#9 ∧ decode 0xC0C0#16 = .jmp 3#3 ∧ decode 0x4810#16 = .jsr 16#11 ∧
  decode 0x4080#16 = .jsrr 2#3 ∧ decode 0xFF25#16 = .trapHalt ∧ decode 0xF030#16 = .trap 0x30#8 ∧
  decode 0x8000#16 = .rti ∧ decode 0xD123#16 = .res

/-- Decode and encode agree on every well-formed instruction, with every operand at every value. -/
def Obligations.DecodeEncodeRoundTrip : Prop := ∀ i : Instr, i.wf = true → decode (encode i) = i

/-- R95: every word decodes, to an instruction whose own word decodes to the same. -/
def Obligations.EveryWordIsOneInstruction : Prop :=
  ∀ w : Word, (decode w).wf = true ∧ decode (encode (decode w)) = decode w

/-- R92: the bits marked x of a word do not change what it decodes to. -/
def Obligations.UnusedBitsAreIgnored : Prop :=
  ∀ w w' : Word,
    (w &&& 0xF020#16 = 0x1000#16 → w' &&& 0xFFE7#16 = w &&& 0xFFE7#16 → decode w' = decode w) ∧
    (w &&& 0xF020#16 = 0x5000#16 → w' &&& 0xFFE7#16 = w &&& 0xFFE7#16 → decode w' = decode w) ∧
    (w &&& 0xF000#16 = 0x9000#16 → w' &&& 0xFFC0#16 = w &&& 0xFFC0#16 → decode w' = decode w) ∧
    (w &&& 0xF800#16 = 0x4000#16 → w' &&& 0xF9C0#16 = w &&& 0xF9C0#16 → decode w' = decode w) ∧
    (w &&& 0xF000#16 = 0xC000#16 → w' &&& 0xF1C0#16 = w &&& 0xF1C0#16 → decode w' = decode w) ∧
    (w &&& 0xF000#16 = 0x8000#16 → w' &&& 0xF000#16 = w &&& 0xF000#16 → decode w' = decode w) ∧
    (w &&& 0xF000#16 = 0xD000#16 → w' &&& 0xF000#16 = w &&& 0xF000#16 → decode w' = decode w) ∧
    (w &&& 0xF000#16 = 0xF000#16 → w' &&& 0xF0FF#16 = w &&& 0xF0FF#16 → decode w' = decode w)

/-- R8: sign extension at the four widths, and zero extension of a character. -/
def Obligations.ExtensionRules : Prop :=
  (∀ f : BitVec 5, sext5 f = if f.getLsbD 4 then f.setWidth 16 ||| (0xFFFF#16 <<< 5) else f.setWidth 16) ∧
  (∀ f : BitVec 6, sext6 f = if f.getLsbD 5 then f.setWidth 16 ||| (0xFFFF#16 <<< 6) else f.setWidth 16) ∧
  (∀ f : BitVec 9, sext9 f = if f.getLsbD 8 then f.setWidth 16 ||| (0xFFFF#16 <<< 9) else f.setWidth 16) ∧
  (∀ f : BitVec 11, sext11 f = if f.getLsbD 10 then f.setWidth 16 ||| (0xFFFF#16 <<< 11) else f.setWidth 16) ∧
  (∀ c : Byte, (zextByte c).toNat = c.toNat)

/-! ### Flags and the operate instructions -/

/-- R27: setcc sets exactly the flag of the value, and nothing else. -/
def Obligations.SetccFollowsTheFlagRule : Prop :=
  ∀ (s : State) (v : Word), FlagRule v (s.setcc v).cond ∧ SameBut [flags] s (s.setcc v)

/-- R111. -/
def Obligations.AddRegResult : Prop :=
  ∀ (dr sr1 sr2 : RegIdx) (s : State),
    Row 0xF020#16 0x1000#16 (fun w => bits w 9 3 = dr ∧ bits w 6 3 = sr1 ∧ bits w 0 3 = sr2) (.addReg dr sr1 sr2) ∧
    ∃ t, exec (.addReg dr sr1 sr2) s = .next t ∧
      (t.reg dr).toNat = ((s.reg sr1).toNat + (s.reg sr2).toNat) % 0x10000 ∧
      FlagRule (t.reg dr) t.cond ∧ SameBut [reg dr, flags] s t

/-- R112. -/
def Obligations.AddImmResult : Prop :=
  ∀ (dr sr1 : RegIdx) (imm5 : BitVec 5) (s : State),
    Row 0xF020#16 0x1020#16 (fun w => bits w 9 3 = dr ∧ bits w 6 3 = sr1 ∧ bits w 0 5 = imm5) (.addImm dr sr1 imm5) ∧
    ∃ t, exec (.addImm dr sr1 imm5) s = .next t ∧
      ((t.reg dr).toNat : Int) = ((s.reg sr1).toNat + imm5.toInt) % 0x10000 ∧
      FlagRule (t.reg dr) t.cond ∧ SameBut [reg dr, flags] s t ∧
      ∀ sr2, s.reg sr2 = disp imm5 → exec (.addReg dr sr1 sr2) s = .next t

/-- R113. -/
def Obligations.AndRegResult : Prop :=
  ∀ (dr sr1 sr2 : RegIdx) (s : State),
    Row 0xF020#16 0x5000#16 (fun w => bits w 9 3 = dr ∧ bits w 6 3 = sr1 ∧ bits w 0 3 = sr2) (.andReg dr sr1 sr2) ∧
    ∃ t, exec (.andReg dr sr1 sr2) s = .next t ∧
      (∀ k, (t.reg dr).getLsbD k = ((s.reg sr1).getLsbD k && (s.reg sr2).getLsbD k)) ∧
      FlagRule (t.reg dr) t.cond ∧ SameBut [reg dr, flags] s t

/-- R114. -/
def Obligations.AndImmResult : Prop :=
  ∀ (dr sr1 : RegIdx) (imm5 : BitVec 5) (s : State),
    Row 0xF020#16 0x5020#16 (fun w => bits w 9 3 = dr ∧ bits w 6 3 = sr1 ∧ bits w 0 5 = imm5) (.andImm dr sr1 imm5) ∧
    ∃ t, exec (.andImm dr sr1 imm5) s = .next t ∧
      (∀ k < 5, (t.reg dr).getLsbD k = ((s.reg sr1).getLsbD k && imm5.getLsbD k)) ∧
      (∀ k, 5 ≤ k → (t.reg dr).getLsbD k = ((s.reg sr1).getLsbD k && imm5.getLsbD 4)) ∧
      FlagRule (t.reg dr) t.cond ∧ SameBut [reg dr, flags] s t

/-- R115. -/
def Obligations.NotResult : Prop :=
  ∀ (dr sr1 : RegIdx) (s : State),
    Row 0xF000#16 0x9000#16 (fun w => bits w 9 3 = dr ∧ bits w 6 3 = sr1) (.notReg dr sr1) ∧
    ∃ t, exec (.notReg dr sr1) s = .next t ∧
      (t.reg dr).toNat = 0xFFFF - (s.reg sr1).toNat ∧
      FlagRule (t.reg dr) t.cond ∧ SameBut [reg dr, flags] s t

/-- The property of L1-3, for ADD and AND: immediate mode gives what register mode gives when the second register holds
the sign-extended immediate. -/
def Obligations.ImmediateModeAgreesWithRegisterMode : Prop :=
  ∀ (dr sr1 sr2 : RegIdx) (imm5 : BitVec 5) (s : State), s.reg sr2 = disp imm5 →
    exec (.addImm dr sr1 imm5) s = exec (.addReg dr sr1 sr2) s ∧
    exec (.andImm dr sr1 imm5) s = exec (.andReg dr sr1 sr2) s

/-! ### Memory -/

/-- R55, R56, and with them R57 and R58: a read of KBSR polls, every other read is plain. -/
def Obligations.MemReadPollsOnlyKbsr : Prop :=
  ∀ s : State,
    (∀ a : Word, a ≠ 0xFE00#16 → s.memRead a = (s.cell a, s)) ∧
    (s.memRead 0xFE00#16).1 = (s.memRead 0xFE00#16).2.cell 0xFE00#16 ∧
    (s.inReady = true → ∃ c rest, s.input = c :: rest ∧
      (s.memRead 0xFE00#16).2.input = rest ∧
      (s.memRead 0xFE00#16).2.history = s.history ++ [.inTake c.char] ∧
      ((s.memRead 0xFE00#16).2.cell 0xFE02#16).toNat = c.char.toNat ∧
      (s.memRead 0xFE00#16).1 =
        (if s.params.kbsrLowBits = .preserve then s.cell 0xFE00#16 ||| 0x8000#16 else 0x8000#16) ∧
      SameBut [cell 0xFE00#16, cell 0xFE02#16, input, history] s (s.memRead 0xFE00#16).2) ∧
    (s.inReady = false →
      (s.memRead 0xFE00#16).2.input.map InChar.char = s.input.map InChar.char ∧
      (s.memRead 0xFE00#16).1 =
        (if s.params.kbsrLowBits = .preserve then s.cell 0xFE00#16 &&& 0x7FFF#16 else 0x0000#16) ∧
      SameBut [cell 0xFE00#16, input] s (s.memRead 0xFE00#16).2)

/-- R59 to R63; after a halting write to MCR the engine takes no further step (R61). -/
def Obligations.MemWriteFollowsTheAddressMap : Prop :=
  ∀ (s : State) (a v : Word), Stored s a v (s.memWrite a v) ∧
    (a = 0xFFFE#16 → v.toNat < 0x8000 → step (s.memWrite a v) = .next (s.memWrite a v))

/-- R71: a word stored at an ordinary address is the one a later fetch from there executes. -/
def Obligations.StoreIsSeenByTheNextFetch : Prop :=
  ∀ (s : State) (a v : Word), 0x2FFF < a.toNat → a ≠ 0xFE00#16 → a ≠ 0xFE06#16 → a ≠ 0xFFFE#16 →
    s.run = .running → s.stopPending = false →
    ((s.memWrite a v).setPc a).fetch.ir = v ∧
    step ((s.memWrite a v).setPc a) = finishStep (exec (decode v) ((s.memWrite a v).setPc a).fetch)

/-- R121. -/
def Obligations.LdResult : Prop :=
  ∀ (dr : RegIdx) (off9 : BitVec 9) (s : State),
    Row 0xF000#16 0x2000#16 (fun w => bits w 9 3 = dr ∧ bits w 0 9 = off9) (.ld dr off9) ∧
    ∃ t, exec (.ld dr off9) s = .next t ∧
      t.reg dr = (s.memRead (s.pc + disp off9)).1 ∧ FlagRule (t.reg dr) t.cond ∧
      SameBut [reg dr, flags] (s.memRead (s.pc + disp off9)).2 t

/-- R122: the pointer read, then the data read in the state after it. -/
def Obligations.LdiResult : Prop :=
  ∀ (dr : RegIdx) (off9 : BitVec 9) (s : State),
    Row 0xF000#16 0xA000#16 (fun w => bits w 9 3 = dr ∧ bits w 0 9 = off9) (.ldi dr off9) ∧
    ∃ t, exec (.ldi dr off9) s = .next t ∧
      t.reg dr = ((s.memRead (s.pc + disp off9)).2.memRead (s.memRead (s.pc + disp off9)).1).1 ∧
      FlagRule (t.reg dr) t.cond ∧
      SameBut [reg dr, flags] ((s.memRead (s.pc + disp off9)).2.memRead (s.memRead (s.pc + disp off9)).1).2 t

/-- R123. -/
def Obligations.LdrResult : Prop :=
  ∀ (dr base : RegIdx) (off6 : BitVec 6) (s : State),
    Row 0xF000#16 0x6000#16 (fun w => bits w 9 3 = dr ∧ bits w 6 3 = base ∧ bits w 0 6 = off6) (.ldr dr base off6) ∧
    ∃ t, exec (.ldr dr base off6) s = .next t ∧
      t.reg dr = (s.memRead (s.reg base + disp off6)).1 ∧ FlagRule (t.reg dr) t.cond ∧
      SameBut [reg dr, flags] (s.memRead (s.reg base + disp off6)).2 t

/-- R124. -/
def Obligations.LeaResult : Prop :=
  ∀ (dr : RegIdx) (off9 : BitVec 9) (s : State),
    Row 0xF000#16 0xE000#16 (fun w => bits w 9 3 = dr ∧ bits w 0 9 = off9) (.lea dr off9) ∧
    ∃ t, exec (.lea dr off9) s = .next t ∧
      ((t.reg dr).toNat : Int) = (s.pc.toNat + off9.toInt) % 0x10000 ∧ FlagRule (t.reg dr) t.cond ∧
      SameBut [reg dr, flags] s t

/-- R125. -/
def Obligations.StResult : Prop :=
  ∀ (sr : RegIdx) (off9 : BitVec 9) (s : State),
    Row 0xF000#16 0x3000#16 (fun w => bits w 9 3 = sr ∧ bits w 0 9 = off9) (.st sr off9) ∧
    ∃ t, exec (.st sr off9) s = .next t ∧ Stored s (s.pc + disp off9) (s.reg sr) t

/-- R126: the pointer read, then the write in the state after it. -/
def Obligations.StiResult : Prop :=
  ∀ (sr : RegIdx) (off9 : BitVec 9) (s : State),
    Row 0xF000#16 0xB000#16 (fun w => bits w 9 3 = sr ∧ bits w 0 9 = off9) (.sti sr off9) ∧
    ∃ t, exec (.sti sr off9) s = .next t ∧
      Stored (s.memRead (s.pc + disp off9)).2 (s.memRead (s.pc + disp off9)).1 (s.reg sr) t

/-- R127. -/
def Obligations.StrResult : Prop :=
  ∀ (sr base : RegIdx) (off6 : BitVec 6) (s : State),
    Row 0xF000#16 0x7000#16 (fun w => bits w 9 3 = sr ∧ bits w 6 3 = base ∧ bits w 0 6 = off6) (.str sr base off6) ∧
    ∃ t, exec (.str sr base off6) s = .next t ∧ Stored s (s.reg base + disp off6) (s.reg sr) t

/-! ### Control transfer -/

/-- R141. -/
def Obligations.BrResult : Prop :=
  ∀ (n z p : Bool) (off9 : BitVec 9) (s : State),
    Row 0xF000#16 0x0000#16 (fun w => w.getLsbD 11 = n ∧ w.getLsbD 10 = z ∧ w.getLsbD 9 = p ∧ bits w 0 9 = off9)
      (.br n z p off9) ∧
    ∃ t, exec (.br n z p off9) s = .next t ∧
      t.pc = (if (n = true ∧ s.cond = .n) ∨ (z = true ∧ s.cond = .z) ∨ (p = true ∧ s.cond = .p)
        then s.pc + disp off9 else s.pc) ∧
      SameBut [pc] s t

/-- R142. -/
def Obligations.JmpResult : Prop :=
  ∀ (base : RegIdx) (s : State),
    Row 0xF000#16 0xC000#16 (fun w => bits w 6 3 = base) (.jmp base) ∧
    ∃ t, exec (.jmp base) s = .next t ∧ t.pc = s.reg base ∧ SameBut [pc] s t

/-- R143. -/
def Obligations.JsrResult : Prop :=
  ∀ (off11 : BitVec 11) (s : State),
    Row 0xF800#16 0x4800#16 (fun w => bits w 0 11 = off11) (.jsr off11) ∧
    ∃ t, exec (.jsr off11) s = .next t ∧ t.reg 7#3 = s.pc ∧ t.pc = s.pc + disp off11 ∧ SameBut [reg 7#3, pc] s t

/-- R144, for both values of JSRR_LINK_FIRST and BaseR = R7 too. -/
def Obligations.JsrrResult : Prop :=
  ∀ (base : RegIdx) (s : State),
    Row 0xF800#16 0x4000#16 (fun w => bits w 6 3 = base) (.jsrr base) ∧
    ∃ t, exec (.jsrr base) s = .next t ∧ t.reg 7#3 = s.pc ∧
      t.pc = (if base = 7#3 ∧ s.params.jsrrLinkFirst = true then s.pc else s.reg base) ∧
      SameBut [reg 7#3, pc] s t

/-! ### TRAP -/

/-- R152: with a character left (the routine holds until it has arrived). -/
def Obligations.GetcResult : Prop :=
  Row 0xF0FF#16 0xF020#16 (fun _ => True) .trapGetc ∧
  ∀ (s : State) (c : InChar) (rest : List InChar), s.input = c :: rest →
    ∃ t, exec .trapGetc s = .next t ∧ (t.reg 0#3).toNat = c.char.toNat ∧ FlagRule (t.reg 0#3) t.cond ∧
      t.input = rest ∧ t.history = s.history ++ [.inTake c.char] ∧ LinkedR7 s t ∧
      SameBut [reg 0#3, reg 7#3, flags, input, history] s t

/-- R153. -/
def Obligations.OutResult : Prop :=
  Row 0xF0FF#16 0xF021#16 (fun _ => True) .trapOut ∧
  ∀ s : State, ∃ t, exec .trapOut s = .next t ∧ t.history = s.history ++ [.outPut (bits (s.reg 0#3) 0 8)] ∧
    LinkedR7 s t ∧ SameBut [reg 7#3, history] s t

/-- R154: PUTS completes in every state, by the loop of the rule; a string that passes 0xFE00 polls the keyboard. -/
def Obligations.PutsResult : Prop :=
  Row 0xF0FF#16 0xF022#16 (fun _ => True) .trapPuts ∧
  ∀ s : State, ∃ t, exec .trapPuts s = .next t ∧
    StringRun (fun w => [bits w 0 8]) (s.reg 0#3) (linked s) t ∧ LinkedR7 s t ∧
    SameBut [reg 7#3, cell 0xFE00#16, cell 0xFE02#16, input, history] s t

/-- R155: with a character left: the prompt, the character, its echo. -/
def Obligations.InResult : Prop :=
  Row 0xF0FF#16 0xF023#16 (fun _ => True) .trapIn ∧
  ∀ (s : State) (c : InChar) (rest : List InChar), s.input = c :: rest →
    ∃ t, exec .trapIn s = .next t ∧ (t.reg 0#3).toNat = c.char.toNat ∧ FlagRule (t.reg 0#3) t.cond ∧
      t.input = rest ∧
      t.history = s.history ++ s.params.inPrompt.map .outPut ++ [.inTake c.char, .outPut c.char] ∧ LinkedR7 s t ∧
      SameBut [reg 0#3, reg 7#3, flags, input, history] s t

/-- R156: PUTSP completes in every state; low byte first, the high byte if it is not zero. -/
def Obligations.PutspResult : Prop :=
  Row 0xF0FF#16 0xF024#16 (fun _ => True) .trapPutsp ∧
  ∀ s : State, ∃ t, exec .trapPutsp s = .next t ∧
    StringRun (fun w => if bits w 8 8 = 0x00#8 then [bits w 0 8] else [bits w 0 8, bits w 8 8])
      (s.reg 0#3) (linked s) t ∧ LinkedR7 s t ∧
    SameBut [reg 7#3, cell 0xFE00#16, cell 0xFE02#16, input, history] s t

/-- R157. -/
def Obligations.HaltResult : Prop :=
  Row 0xF0FF#16 0xF025#16 (fun _ => True) .trapHalt ∧
  ∀ s : State, ∃ t, exec .trapHalt s = .next t ∧ t.run = .halted ∧ t.cause = .halt ∧
    t.history = s.history ++ s.params.haltBanner.map .outPut ∧ LinkedR7 s t ∧
    SameBut [reg 7#3, runState, history] s t ∧ step t = .next t

/-- R158 with the default of DEC_IN (log entry 5): blanks, digits, and the first non-digit, all consumed. -/
def Obligations.Inu16Result : Prop :=
  Row 0xF0FF#16 0xF026#16 (fun _ => True) .trapInu16 ∧
  ∀ (s : State) (cs rest : List InChar) (blanks digits : List Byte) (last : Byte), s.input = cs ++ rest →
    cs.map InChar.char = blanks ++ digits ++ [last] →
    (∀ c ∈ blanks, Blank c) → (∀ c ∈ digits, Digit c) → ¬ Digit last → (digits = [] → ¬ Blank last) →
    ∃ t, exec .trapInu16 s = .next t ∧ (t.reg 0#3).toNat = decimal digits % 0x10000 ∧
      FlagRule (t.reg 0#3) t.cond ∧ t.input = rest ∧
      t.history = s.history ++ cs.map (fun c => .inTake c.char) ∧ LinkedR7 s t ∧
      SameBut [reg 0#3, reg 7#3, flags, input, history] s t

/-- R159 with the default of DEC_OUT (log entry 5): the decimal digits of R0, no leading zero. -/
def Obligations.Outu16Result : Prop :=
  Row 0xF0FF#16 0xF027#16 (fun _ => True) .trapOutu16 ∧
  ∀ s : State, ∃ t digits, exec .trapOutu16 s = .next t ∧ t.history = s.history ++ digits.map .outPut ∧
    (∀ c ∈ digits, Digit c) ∧ decimal digits = (s.reg 0#3).toNat ∧ digits ≠ [] ∧
    (digits.head? = some 0x30#8 → digits = [0x30#8]) ∧ LinkedR7 s t ∧ SameBut [reg 7#3, history] s t

/-- R160. -/
def Obligations.BadTrapResult : Prop :=
  ∀ (vect : Byte) (s : State), vect.toNat < 0x20 ∨ 0x27 < vect.toNat →
    Row 0xF000#16 0xF000#16 (fun w => bits w 0 8 = vect) (.trap vect) ∧
    ∃ t, exec (.trap vect) s = .next t ∧ t.history = s.history ++ [.diag (.badTrap s.ipc vect s.ir)] ∧
      SameBut [history] s t

/-- R150: TRAP with a valid vector is the routine of vect - 0x20, whichever row of the table names it. -/
def Obligations.TrapDispatchesByVector : Prop :=
  ∀ s : State,
    exec (.trap 0x20#8) s = exec .trapGetc s ∧ exec (.trap 0x21#8) s = exec .trapOut s ∧
    exec (.trap 0x22#8) s = exec .trapPuts s ∧ exec (.trap 0x23#8) s = exec .trapIn s ∧
    exec (.trap 0x24#8) s = exec .trapPutsp s ∧ exec (.trap 0x25#8) s = exec .trapHalt s ∧
    exec (.trap 0x26#8) s = exec .trapInu16 s ∧ exec (.trap 0x27#8) s = exec .trapOutu16 s

/-- R151 with the model's form of the stuck state (log entry 7): a reading routine that needs a character when none is left,
or INU16 when the characters left are only blanks and then digits, stops in `inputExhausted`, holding in the state that the
routine had reached. What it has done by then (the link of R7, IN's prompt, INU16's characters taken) is read from the order
of the pseudocode of R150, R155 and R158 (log entry 16, DEDUCED). The INU16 clause is for the default of DEC_IN (log entry 5;
the spec's decision D23). -/
def Obligations.ExhaustedInputHoldsForEver : Prop :=
  (∀ s : State, s.input = [] →
    (∃ h, exec .trapGetc s = .fault (.inputExhausted h) ∧ LinkedR7 s h ∧ SameBut [reg 7#3] s h) ∧
    (∃ h, exec .trapIn s = .fault (.inputExhausted h) ∧ h.history = s.history ++ s.params.inPrompt.map .outPut ∧
      LinkedR7 s h ∧ SameBut [reg 7#3, history] s h)) ∧
  (∀ (s : State) (blanks digits : List Byte), s.input.map InChar.char = blanks ++ digits →
    (∀ c ∈ blanks, Blank c) → (∀ c ∈ digits, Digit c) →
    ∃ h, exec .trapInu16 s = .fault (.inputExhausted h) ∧ h.input = [] ∧
      h.history = s.history ++ s.input.map (fun c => .inTake c.char) ∧ LinkedR7 s h ∧
      SameBut [reg 7#3, input, history] s h)

/-- R154 for a whole string in plain storage: its low bytes are output in order and nothing else changes. -/
def Obligations.PutsPrintsAPlainString : Prop :=
  ∀ (s : State) (ws : List Word), (∀ w ∈ ws, w ≠ 0x0000#16) →
    (s.reg 0#3).toNat + ws.length ≤ 0xFFFF →
    (∀ k ≤ ws.length, s.reg 0#3 + BitVec.ofNat 16 k ≠ 0xFE00#16) →
    (∀ (k : Nat) (h : k < ws.length), s.cell (s.reg 0#3 + BitVec.ofNat 16 k) = ws[k]) →
    s.cell (s.reg 0#3 + BitVec.ofNat 16 ws.length) = 0x0000#16 →
    ∃ t, exec .trapPuts s = .next t ∧ t.history = s.history ++ ws.map (fun w => .outPut (bits w 0 8)) ∧
      LinkedR7 s t ∧ SameBut [reg 7#3, history] s t

/-- R161, R162: RTI and RES report BadOpcode with the whole word and change nothing else. -/
def Obligations.ReservedOpcodesReport : Prop :=
  Row 0xF000#16 0x8000#16 (fun _ => True) .rti ∧ Row 0xF000#16 0xD000#16 (fun _ => True) .res ∧
  ∀ s : State,
    (∃ t, exec .rti s = .next t ∧ t.history = s.history ++ [.diag (.badOpcode s.ipc 0x8#4 s.ir)] ∧
      SameBut [history] s t) ∧
    (∃ t, exec .res s = .next t ∧ t.history = s.history ++ [.diag (.badOpcode s.ipc 0xD#4 s.ir)] ∧
      SameBut [history] s t)

/-! ### The step -/

/-- R39: what a step does when it executes an instruction: the fetch through MemRead, the trace, the increment, the
instruction the word decodes to; then the host's tick (log entry 8), which is the identity without a stop schedule. -/
def Obligations.StepRunsTheDecodedInstruction : Prop :=
  ∀ (s u : State) (w : Word) (i : Instr), s.run = .running → s.stopPending = false → s.memRead s.pc = (w, u) →
    decode w = i →
    ∃ f : State, f.ipc = s.pc ∧ f.ir = w ∧ f.pc = s.pc + 1#16 ∧
      f.history = u.history ++ (if s.params.traceEnabled then [.trace s.pc w s.regs s.cond] else []) ∧
      f = { u with ipc := f.ipc, ir := f.ir, pc := f.pc, history := f.history } ∧
      step s = finishStep (exec i f) ∧
      (∀ v, exec i f = .next v → step s = .next v.hostTick ∧ (v.stopIn = none → step s = .next v)) ∧
      (∀ e, exec i f = .fault e → step s = .fault e)

/-- R187, R39: a pending stop request is taken before the fetch, and nothing else happens. -/
def Obligations.StopRequestIsTaken : Prop :=
  ∀ s : State, s.run = .running → s.stopPending = true →
    ∃ t, step s = .next t ∧ t.run = .halted ∧ t.cause = .interrupted ∧ t.stopCausePort = 2#2 ∧ SameBut [runState] s t

/-- R196: a halted machine takes no step, however often it is asked, and the port says so. -/
def Obligations.HaltedIsTerminal : Prop :=
  ∀ (s : State) (n : Nat), s.run = .halted → Sys2Proof.core.run n s = .next s ∧ s.haltedPort = true

/-- The host's stop schedule (log entry 8): a request raised during a step is latched and taken at the next boundary, with
cause Interrupted, unless the step's own instruction halted (R187, R188). -/
def Obligations.ScheduledStopIsTakenAtTheNextBoundary : Prop :=
  ∀ s t : State, s.run = .running → s.stopPending = false → s.stopIn = some 0 → step s = .next t →
    t.stopPending = true ∧
    (t.run = .running → ∃ u, step t = .next u ∧ u.run = .halted ∧ u.cause = .interrupted) ∧
    (t.run = .halted → t.cause = .halt ∧ step t = .next t)

/-! ### Rules over all instructions -/

/-- R22: only the instructions it lists write a general register, and only the one it names. -/
def Obligations.RegistersWrittenOnlyAsListed : Prop :=
  ∀ (i : Instr) (s t : State), exec i s = .next t → ∀ r : RegIdx,
    ¬ Results i r → ¬ (r = 7#3 ∧ linksR7 i s.params) → t.reg r = s.reg r

/-- R28: cond reflects the result register of an instruction that has one, and is unchanged by every other. -/
def Obligations.FlagsWrittenOnlyAsListed : Prop :=
  ∀ (i : Instr) (s t : State), exec i s = .next t →
    (∀ r, Results i r → FlagRule (t.reg r) t.cond) ∧ ((∀ r, ¬ Results i r) → t.cond = s.cond)

/-- R28: the only reader of cond is BR. -/
def Obligations.OnlyBranchReadsTheFlags : Prop :=
  ∀ (i : Instr) (s t : State) (c : Cond), (∀ n z p off9, i ≠ .br n z p off9) → exec i s = .next t →
    ((∃ r, Results i r) → exec i (s.setCond c) = .next t) ∧
    ((∀ r, ¬ Results i r) → exec i (s.setCond c) = .next (t.setCond c))

/-- R24, R140, R150: only BR, JMP, JSR and JSRR write the pc after the fetch increment. -/
def Obligations.PcWrittenOnlyByControlTransfers : Prop :=
  ∀ (i : Instr) (s t : State), (∀ n z p off9, i ≠ .br n z p off9) → (∀ b, i ≠ .jmp b) → (∀ o, i ≠ .jsr o) →
    (∀ b, i ≠ .jsrr b) → exec i s = .next t → t.pc = s.pc

/-- R29, R30: an instruction halts the machine only by the HALT trap or by clearing MCR bit 15, and the cause is Halt. -/
def Obligations.RunStateWrittenOnlyAsListed : Prop :=
  ∀ (i : Instr) (s t : State), exec i s = .next t →
    (t.run = s.run ∧ t.cause = s.cause) ∨
    (t.run = .halted ∧ t.cause = .halt ∧
      (i = .trapHalt ∨ i = .trap 0x25#8 ∨ ∃ v, storeOf i s = some (0xFFFE#16, v) ∧ v.toNat < 0x8000))

/-- R66: a cell changes only by the instruction's one MemWrite, or by a keyboard poll (KBSR and KBDR). -/
def Obligations.MemoryWrittenOnlyAsListed : Prop :=
  ∀ (i : Instr) (s t : State), exec i s = .next t → ∀ a : Word, a ≠ 0xFE00#16 → a ≠ 0xFE02#16 →
    (∀ v, storeOf i s ≠ some (a, v)) → t.cell a = s.cell a

/-- R188: at most one diagnostic event in an instruction. -/
def Obligations.AtMostOneDiagnostic : Prop :=
  ∀ (i : Instr) (s t : State), exec i s = .next t →
    t.diagLog = s.diagLog ∨ ∃ d, t.diagLog = s.diagLog ++ [d]

/-! ### Invariants of every step -/

/-- Every step keeps memory in canonical form (the model's own, log entry 1), and the cause None exactly while the machine
runs (R30). -/
def Obligations.StepKeepsTheInvariant : Prop := ∀ s t : State, s.Inv → step s = .next t → t.Inv

/-- The invariant holds at reset and after every load over a canonical INIT_MEM. Its memory half, the canonical list form, is
the model's own (log entry 1, DEDUCED); the spec gives no such form. -/
def Obligations.InvariantHoldsWhenTheRunBegins : Prop :=
  State.reset.Inv ∧
  ∀ (p : Params) (initMem : Memory) (base : Word) (image : List Word) (entry : Word) (input : List InChar)
    (pending : Bool) (after : Option Nat) (t : State), initMem.wf = true →
    State.load p initMem base image entry input pending after = .ok t → t.Inv

/-- R60, R61, R62: no step changes a cell of the protected region, DDR's or MCR's. -/
def Obligations.ProtectedCellsNeverChange : Prop :=
  ∀ (s t : State) (a : Word), Protected a → step s = .next t → t.cell a = s.cell a

/-- R33, R37, 93 I7: a step only appends to the history, and the characters it takes from the input are exactly those it
reports, in order: input is never lost or reordered. -/
def Obligations.InputIsNeverLostOrReordered : Prop :=
  ∀ s t : State, step s = .next t → ∃ events : List Event, t.history = s.history ++ events ∧
    s.input.map InChar.char = events.filterMap Event.taken? ++ t.input.map InChar.char

/-- R6, R35, R186: no step changes the parameters, and none clears the stop latch. -/
def Obligations.ParametersAndStopLatchPersist : Prop :=
  ∀ s t : State, step s = .next t → t.params = s.params ∧ (s.stopPending = true → t.stopPending = true)

/-- R36, R194: the trace is observational: without it a step does the same, but for the trace records. -/
def Obligations.TraceHasNoEffectOnExecution : Prop :=
  ∀ s : State,
    (∀ t, step s = .next t → step (untraced s) = .next (untraced t)) ∧
    (∀ h, step s = .fault (.inputExhausted h) → step (untraced s) = .fault (.inputExhausted (untraced h)))
end

