-- ==== Sys2Proof/Laws/Decode.lean ====
section
/-! SUPPORT. Reading fields of a word that matches a mask, and the fields of a word built by concatenation: what the proofs
about the decoder need. -/

namespace Sys2Proof

/-- A word that agrees with x under a mask covering bits 15:12 has x's opcode. -/
theorem fieldOpcode_of_mask {w m x : Word} (hm : fieldOpcode m = 0xF#4) (h : w &&& m = x) :
    fieldOpcode w = fieldOpcode x := by
  have : fieldOpcode (w &&& m) = fieldOpcode w &&& fieldOpcode m := by
    simp only [fieldOpcode]
    exact BitVec.extractLsb'_and
  rw [← h, this, hm]
  exact (BitVec.and_allOnes (x := fieldOpcode w)).symm

/-- A word that agrees with x under a mask covering bit k has x's bit k. -/
theorem getLsbD_of_mask {w m x : Word} {k : Nat} (hm : m.getLsbD k = true) (h : w &&& m = x) :
    w.getLsbD k = x.getLsbD k := by
  rw [← h, BitVec.getLsbD_and, hm, Bool.and_true]

/-- A bit of a placed field. -/
theorem getLsbD_place {n : Nat} (lo : Nat) (f : BitVec n) (k : Nat) :
    (place lo f).getLsbD k = (decide (k < 16) && (decide (lo ≤ k) && f.getLsbD (k - lo))) := by
  simp only [place, BitVec.getLsbD_shiftLeft, BitVec.getLsbD_setWidth]
  by_cases h1 : k < 16
  · by_cases h2 : k < lo
    · simp [h1, h2, Nat.not_le.2 h2]
    · have h3 : k - lo < 16 := by omega
      simp [h1, h2, Nat.not_lt.1 h2, h3]
  · simp [h1]

/-- A field of an OR is the OR of the fields. -/
theorem extract_or (a b : Word) (lo n : Nat) :
    (a ||| b).extractLsb' lo n = a.extractLsb' lo n ||| b.extractLsb' lo n := by
  apply BitVec.eq_of_getLsbD_eq
  intro k hk
  simp only [BitVec.getLsbD_extractLsb', BitVec.getLsbD_or, hk, decide_true, Bool.true_and]

/-- A placed field reads back. -/
theorem extract_place_same {m : Nat} (lo : Nat) (f : BitVec m) (h : lo + m ≤ 16) :
    (place lo f).extractLsb' lo m = f := by
  apply BitVec.eq_of_getLsbD_eq
  intro k hk
  have h1 : lo + k < 16 := by omega
  simp only [BitVec.getLsbD_extractLsb', getLsbD_place, hk, h1, decide_true, Bool.true_and,
    Nat.le_add_right, Nat.add_sub_cancel_left]

/-- Bits below a placed field are 0. -/
theorem extract_place_below {m n : Nat} (lo lo' : Nat) (f : BitVec m) (h : lo' + n ≤ lo) :
    (place lo f).extractLsb' lo' n = 0#n := by
  apply BitVec.eq_of_getLsbD_eq
  intro k hk
  have h1 : ¬ lo ≤ lo' + k := by omega
  simp only [BitVec.getLsbD_extractLsb', getLsbD_place, h1, decide_false, Bool.false_and, Bool.and_false,
    BitVec.getLsbD_zero]

/-- Bits above a placed field are 0. -/
theorem extract_place_above {m n : Nat} (lo lo' : Nat) (f : BitVec m) (h : lo + m ≤ lo') :
    (place lo f).extractLsb' lo' n = 0#n := by
  apply BitVec.eq_of_getLsbD_eq
  intro k hk
  have h1 : m ≤ lo' + k - lo := by omega
  simp only [BitVec.getLsbD_extractLsb', getLsbD_place, BitVec.getLsbD_of_ge _ _ h1, Bool.and_false,
    BitVec.getLsbD_zero]

/-- A bit of a placed field, as an element. -/
theorem getElem_place {n : Nat} (lo : Nat) (f : BitVec n) (k : Nat) (h : k < 16) :
    (place lo f)[k] = (decide (lo ≤ k) && f.getLsbD (k - lo)) := by
  rw [← BitVec.getLsbD_eq_getElem, getLsbD_place]
  simp [h]

/-- The routine rows own exactly the vectors 0x20 to 0x27. -/
theorem validVector_iff (v : Byte) : validVector v = true ↔ 0x20 ≤ v.toNat ∧ v.toNat ≤ 0x27 := by
  simp [validVector, BitVec.le_def]

/-- A vector outside 0x20-0x27 decodes to the generic row. -/
theorem decodeTrap_invalid {v : Byte} (h : validVector v = false) : decodeTrap v = .trap v := by
  have hv : ¬ (0x20 ≤ v.toNat ∧ v.toNat ≤ 0x27) := fun e => by simp [(validVector_iff v).2 e] at h
  have ne : ∀ k : Nat, 0x20 ≤ k → k ≤ 0x27 → v ≠ BitVec.ofNat 8 k := by
    intro k h1 h2 e
    apply hv
    rw [e]
    have : k < 2 ^ 8 := by omega
    simp only [BitVec.toNat_ofNat, Nat.mod_eq_of_lt this]
    exact ⟨h1, h2⟩
  simp [decodeTrap, ne 0x20 (by decide) (by decide), ne 0x21 (by decide) (by decide), ne 0x22 (by decide) (by decide),
    ne 0x23 (by decide) (by decide), ne 0x24 (by decide) (by decide), ne 0x25 (by decide) (by decide),
    ne 0x26 (by decide) (by decide), ne 0x27 (by decide) (by decide)]

/-! ### The decoder by opcode -/

theorem decode_br {w : Word} (h : fieldOpcode w = 0x0#4) :
    decode w =
      .br (w.getLsbD 11) (w.getLsbD 10) (w.getLsbD 9) (fieldOff9 w) := by
  unfold decode
  simp only [h]
  rfl

theorem decode_add {w : Word} (h : fieldOpcode w = 0x1#4) :
    decode w =
      if w.getLsbD 5 then .addImm (fieldDr w) (fieldSr1 w) (fieldImm5 w)
      else .addReg (fieldDr w) (fieldSr1 w) (fieldSr2 w) := by
  unfold decode
  simp only [h]
  rfl

theorem decode_ld {w : Word} (h : fieldOpcode w = 0x2#4) :
    decode w =
      .ld (fieldDr w) (fieldOff9 w) := by
  unfold decode
  simp only [h]
  rfl

theorem decode_st {w : Word} (h : fieldOpcode w = 0x3#4) :
    decode w =
      .st (fieldDr w) (fieldOff9 w) := by
  unfold decode
  simp only [h]
  rfl

theorem decode_jsr {w : Word} (h : fieldOpcode w = 0x4#4) :
    decode w =
      if w.getLsbD 11 then .jsr (fieldOff11 w) else .jsrr (fieldSr1 w) := by
  unfold decode
  simp only [h]
  rfl

theorem decode_and {w : Word} (h : fieldOpcode w = 0x5#4) :
    decode w =
      if w.getLsbD 5 then .andImm (fieldDr w) (fieldSr1 w) (fieldImm5 w)
      else .andReg (fieldDr w) (fieldSr1 w) (fieldSr2 w) := by
  unfold decode
  simp only [h]
  rfl

theorem decode_ldr {w : Word} (h : fieldOpcode w = 0x6#4) :
    decode w =
      .ldr (fieldDr w) (fieldSr1 w) (fieldOff6 w) := by
  unfold decode
  simp only [h]
  rfl

theorem decode_str {w : Word} (h : fieldOpcode w = 0x7#4) :
    decode w =
      .str (fieldDr w) (fieldSr1 w) (fieldOff6 w) := by
  unfold decode
  simp only [h]
  rfl

theorem decode_rti {w : Word} (h : fieldOpcode w = 0x8#4) :
    decode w =
      .rti := by
  unfold decode
  simp only [h]
  rfl

theorem decode_not {w : Word} (h : fieldOpcode w = 0x9#4) :
    decode w =
      .notReg (fieldDr w) (fieldSr1 w) := by
  unfold decode
  simp only [h]
  rfl

theorem decode_ldi {w : Word} (h : fieldOpcode w = 0xA#4) :
    decode w =
      .ldi (fieldDr w) (fieldOff9 w) := by
  unfold decode
  simp only [h]
  rfl

theorem decode_sti {w : Word} (h : fieldOpcode w = 0xB#4) :
    decode w =
      .sti (fieldDr w) (fieldOff9 w) := by
  unfold decode
  simp only [h]
  rfl

theorem decode_jmp {w : Word} (h : fieldOpcode w = 0xC#4) :
    decode w =
      .jmp (fieldSr1 w) := by
  unfold decode
  simp only [h]
  rfl

theorem decode_res {w : Word} (h : fieldOpcode w = 0xD#4) :
    decode w =
      .res := by
  unfold decode
  simp only [h]
  rfl

theorem decode_lea {w : Word} (h : fieldOpcode w = 0xE#4) :
    decode w =
      .lea (fieldDr w) (fieldOff9 w) := by
  unfold decode
  simp only [h]
  rfl

theorem decode_trap {w : Word} (h : fieldOpcode w = 0xF#4) :
    decode w =
      decodeTrap (fieldVect w) := by
  unfold decode
  simp only [h]
  rfl

/-- Whatever row a vector belongs to, it is a well-formed one. -/
theorem decodeTrap_wf (v : Byte) : (decodeTrap v).wf = true := by
  cases h : validVector v with
  | false => rw [decodeTrap_invalid h]; simp [Instr.wf, h]
  | true =>
    have hv := (validVector_iff v).1 h
    have hk : ∀ k, 0x20 ≤ k → k ≤ 0x27 → (decodeTrap (BitVec.ofNat 8 k)).wf = true := by
      intro k h1 h2
      interval_cases k <;> rfl
    simpa using hk _ hv.1 hv.2

/-- Two words that agree under a mask agree in every field the mask covers. -/
theorem extract_of_mask {w w' m : Word} {lo n : Nat} (hm : m.extractLsb' lo n = BitVec.allOnes n)
    (h : w' &&& m = w &&& m) : w'.extractLsb' lo n = w.extractLsb' lo n := by
  have := congrArg (fun x => x.extractLsb' lo n) h
  simpa [BitVec.extractLsb'_and, hm] using this

end Sys2Proof
end

