-- ==== Sys2Proof/Laws/Memory.lean ====
section
/-! SUPPORT. The laws of memory: a read after a write, for every list; every operation keeps the canonical form; two
canonical memories with the same words are the same data. -/

namespace Sys2Proof.Machine

@[simp] theorem Memory.read_nil (k : Nat) : Memory.read [] k = Memory.unlisted := rfl

@[simp] theorem Memory.read_cons (c : Nat × Word) (m : Memory) (k : Nat) :
    Memory.read (c :: m) k = if k = c.1 then c.2 else Memory.read m k := by
  cases c; rfl

theorem Memory.read_filter_same (m : Memory) (k : Nat) :
    Memory.read (m.filter (fun c => c.1 != k)) k = Memory.unlisted := by
  induction m with
  | nil => rfl
  | cons c m ih =>
    by_cases h : c.1 = k
    · simp [h, ih]
    · have hk : k ≠ c.1 := fun e => h e.symm
      simp [h, hk, ih]

theorem Memory.read_filter_other (m : Memory) {j k : Nat} (hjk : j ≠ k) :
    Memory.read (m.filter (fun c => c.1 != k)) j = Memory.read m j := by
  induction m with
  | nil => rfl
  | cons c m ih =>
    by_cases h : c.1 = k
    · simp [h, ih, hjk]
    · simp [h, ih]

theorem Memory.read_insert_same (m : Memory) {k : Nat} (v : Word) (h : ∀ c ∈ m, c.1 ≠ k) :
    Memory.read (Memory.insert k v m) k = v := by
  induction m with
  | nil => simp [Memory.insert]
  | cons c m ih =>
    have hc : k ≠ c.1 := fun e => h c (by simp) e.symm
    unfold Memory.insert
    split
    · simp
    · simp [hc, ih (fun d hd => h d (by simp [hd]))]

theorem Memory.read_insert_other (m : Memory) {j k : Nat} (v : Word) (hjk : j ≠ k) :
    Memory.read (Memory.insert k v m) j = Memory.read m j := by
  induction m with
  | nil => simp [Memory.insert, hjk]
  | cons c m ih =>
    unfold Memory.insert
    split
    · simp [hjk]
    · simp [ih]

/-- A read of the address written gives the word written (R68). -/
@[simp] theorem Memory.read_write_same (m : Memory) (k : Nat) (v : Word) : Memory.read (Memory.write m k v) k = v := by
  unfold Memory.write
  by_cases hv : v = Memory.unlisted
  · simp [hv, Memory.read_filter_same]
  · simp only [hv, if_false]
    exact Memory.read_insert_same _ _ (fun c hc => by simpa using (List.mem_filter.1 hc).2)

/-- A read of another address is not changed by a write. -/
theorem Memory.read_write_other (m : Memory) {j k : Nat} (h : j ≠ k) (v : Word) :
    Memory.read (Memory.write m k v) j = Memory.read m j := by
  unfold Memory.write
  by_cases hv : v = Memory.unlisted
  · simp [hv, Memory.read_filter_other m h]
  · simp [hv, Memory.read_insert_other _ _ h, Memory.read_filter_other m h]

theorem Memory.read_write (m : Memory) (j k : Nat) (v : Word) :
    Memory.read (Memory.write m k v) j = if j = k then v else Memory.read m j := by
  split
  · next h => subst h; simp
  · next h => exact Memory.read_write_other m h v

/-! ### The canonical form -/

theorem Memory.wf_iff (m : Memory) :
    m.wf = true ↔ m.Pairwise (fun c d => c.1 < d.1) ∧ ∀ c ∈ m, c.1 < 0x10000 ∧ c.2 ≠ Memory.unlisted := by
  simp [Memory.wf]

theorem Memory.mem_insert {m : Memory} {k : Nat} {v : Word} {c : Nat × Word} (h : c ∈ Memory.insert k v m) :
    c = (k, v) ∨ c ∈ m := by
  induction m with
  | nil => simpa [Memory.insert] using h
  | cons d m ih =>
    unfold Memory.insert at h
    split at h
    · simpa using h
    · rcases List.mem_cons.1 h with rfl | h'
      · simp
      · rcases ih h' with rfl | h''
        · simp
        · simp [h'']

theorem Memory.pairwise_insert {m : Memory} {k : Nat} (v : Word) (hm : m.Pairwise (fun c d => c.1 < d.1))
    (hk : ∀ c ∈ m, c.1 ≠ k) : (Memory.insert k v m).Pairwise (fun c d => c.1 < d.1) := by
  induction m with
  | nil => simp [Memory.insert]
  | cons d m ih =>
    rw [List.pairwise_cons] at hm
    unfold Memory.insert
    split
    · next hlt =>
      refine List.pairwise_cons.2 ⟨?_, List.pairwise_cons.2 hm⟩
      intro c hc
      rcases List.mem_cons.1 hc with rfl | hc
      · exact hlt
      · exact Nat.lt_trans hlt (hm.1 c hc)
    · next hge =>
      have hd : d.1 < k := Nat.lt_of_le_of_ne (Nat.not_lt.1 hge) (hk d (by simp))
      refine List.pairwise_cons.2 ⟨?_, ih hm.2 (fun c hc => hk c (by simp [hc]))⟩
      intro c hc
      rcases Memory.mem_insert hc with rfl | hc
      · exact hd
      · exact hm.1 c hc

/-- A write at an address of the space keeps the canonical form. -/
theorem Memory.wf_write {m : Memory} (hm : m.wf = true) {k : Nat} (hk : k < 0x10000) (v : Word) :
    (Memory.write m k v).wf = true := by
  rw [Memory.wf_iff] at hm ⊢
  have hp : (m.filter (fun c => c.1 != k)).Pairwise (fun c d => c.1 < d.1) := hm.1.filter _
  have hall : ∀ c ∈ m.filter (fun c => c.1 != k), c.1 < 0x10000 ∧ c.2 ≠ Memory.unlisted :=
    fun c hc => hm.2 c (List.mem_filter.1 hc).1
  unfold Memory.write
  by_cases hv : v = Memory.unlisted
  · simp only [hv, if_true]
    exact ⟨hp, hall⟩
  · simp only [hv, if_false]
    refine ⟨Memory.pairwise_insert v hp (fun c hc => by simpa using (List.mem_filter.1 hc).2), ?_⟩
    intro c hc
    rcases Memory.mem_insert hc with rfl | hc
    · exact ⟨hk, hv⟩
    · exact hall c hc

/-- Loading an image keeps the canonical form. -/
theorem Memory.wf_place (ws : List Word) {m : Memory} (hm : m.wf = true) (k : Nat) : (Memory.place m k ws).wf = true := by
  induction ws generalizing m k with
  | nil => exact hm
  | cons w ws ih =>
    unfold Memory.place
    split
    · next hk => exact ih (Memory.wf_write hm hk w) (k + 1)
    · exact hm

/-- An address below every listed one reads as an unlisted address. -/
theorem Memory.read_of_lt {m : Memory} {k : Nat} (h : ∀ c ∈ m, k < c.1) : Memory.read m k = Memory.unlisted := by
  induction m with
  | nil => rfl
  | cons c m ih =>
    have hc : k ≠ c.1 := Nat.ne_of_lt (h c (by simp))
    simp [hc, ih (fun d hd => h d (by simp [hd]))]

/-- Two canonical memories that read the same everywhere are the same list. -/
theorem Memory.ext_of_wf {m n : Memory} (hm : m.wf = true) (hn : n.wf = true)
    (h : ∀ k, Memory.read m k = Memory.read n k) : m = n := by
  rw [Memory.wf_iff] at hm hn
  induction m generalizing n with
  | nil =>
    cases n with
    | nil => rfl
    | cons d n =>
      have := h d.1
      simp at this
      exact absurd this.symm (hn.2 d (by simp)).2
  | cons c m ih =>
    cases n with
    | nil =>
      have := h c.1
      simp at this
      exact absurd this (hm.2 c (by simp)).2
    | cons d n =>
      have hm1 := List.pairwise_cons.1 hm.1
      have hn1 := List.pairwise_cons.1 hn.1
      have hk : c.1 = d.1 := by
        rcases Nat.lt_trichotomy c.1 d.1 with hlt | heq | hgt
        · have := h c.1
          rw [Memory.read_of_lt (m := d :: n) (fun e he => by
            rcases List.mem_cons.1 he with rfl | he
            · exact hlt
            · exact Nat.lt_trans hlt (hn1.1 e he))] at this
          simp at this
          exact absurd this (hm.2 c (by simp)).2
        · exact heq
        · have := h d.1
          rw [Memory.read_of_lt (m := c :: m) (fun e he => by
            rcases List.mem_cons.1 he with rfl | he
            · exact hgt
            · exact Nat.lt_trans hgt (hm1.1 e he))] at this
          simp at this
          exact absurd this.symm (hn.2 d (by simp)).2
      have hv : c.2 = d.2 := by simpa [hk] using h c.1
      have hcd : c = d := Prod.ext hk hv
      subst hcd
      congr 1
      refine ih ⟨hm1.2, fun e he => hm.2 e (by simp [he])⟩ ⟨hn1.2, fun e he => hn.2 e (by simp [he])⟩ ?_
      intro k
      by_cases hkc : k = c.1
      · subst hkc
        rw [Memory.read_of_lt hm1.1, Memory.read_of_lt hn1.1]
      · simpa [hkc] using h k

end Sys2Proof.Machine
end

