-- ==== Sys2Proof/Laws/State.lean ====
section
/-! SUPPORT. What each named update of State does to each field, to a register read (`State.reg`) and to a memory cell
(`State.cell`): one lemma each, so that no later proof unfolds a record update. -/

namespace Sys2Proof.Machine

variable (s : State)

/-! ### setReg -/

@[simp] theorem State.setReg_regs (r : RegIdx) (v : Word) : (s.setReg r v).regs = s.regs.set r.toNat v := rfl
@[simp] theorem State.setReg_pc (r : RegIdx) (v : Word) : (s.setReg r v).pc = s.pc := rfl
@[simp] theorem State.setReg_cond (r : RegIdx) (v : Word) : (s.setReg r v).cond = s.cond := rfl
@[simp] theorem State.setReg_run (r : RegIdx) (v : Word) : (s.setReg r v).run = s.run := rfl
@[simp] theorem State.setReg_cause (r : RegIdx) (v : Word) : (s.setReg r v).cause = s.cause := rfl
@[simp] theorem State.setReg_mem (r : RegIdx) (v : Word) : (s.setReg r v).mem = s.mem := rfl
@[simp] theorem State.setReg_ipc (r : RegIdx) (v : Word) : (s.setReg r v).ipc = s.ipc := rfl
@[simp] theorem State.setReg_ir (r : RegIdx) (v : Word) : (s.setReg r v).ir = s.ir := rfl
@[simp] theorem State.setReg_input (r : RegIdx) (v : Word) : (s.setReg r v).input = s.input := rfl
@[simp] theorem State.setReg_stopPending (r : RegIdx) (v : Word) : (s.setReg r v).stopPending = s.stopPending := rfl
@[simp] theorem State.setReg_stopIn (r : RegIdx) (v : Word) : (s.setReg r v).stopIn = s.stopIn := rfl
@[simp] theorem State.setReg_history (r : RegIdx) (v : Word) : (s.setReg r v).history = s.history := rfl
@[simp] theorem State.setReg_params (r : RegIdx) (v : Word) : (s.setReg r v).params = s.params := rfl
@[simp] theorem State.setReg_cell (r : RegIdx) (v : Word) (x : Word) : (s.setReg r v).cell x = s.cell x := rfl

/-! ### setPc -/

@[simp] theorem State.setPc_regs (v : Word) : (s.setPc v).regs = s.regs := rfl
@[simp] theorem State.setPc_pc (v : Word) : (s.setPc v).pc = v := rfl
@[simp] theorem State.setPc_cond (v : Word) : (s.setPc v).cond = s.cond := rfl
@[simp] theorem State.setPc_run (v : Word) : (s.setPc v).run = s.run := rfl
@[simp] theorem State.setPc_cause (v : Word) : (s.setPc v).cause = s.cause := rfl
@[simp] theorem State.setPc_mem (v : Word) : (s.setPc v).mem = s.mem := rfl
@[simp] theorem State.setPc_ipc (v : Word) : (s.setPc v).ipc = s.ipc := rfl
@[simp] theorem State.setPc_ir (v : Word) : (s.setPc v).ir = s.ir := rfl
@[simp] theorem State.setPc_input (v : Word) : (s.setPc v).input = s.input := rfl
@[simp] theorem State.setPc_stopPending (v : Word) : (s.setPc v).stopPending = s.stopPending := rfl
@[simp] theorem State.setPc_stopIn (v : Word) : (s.setPc v).stopIn = s.stopIn := rfl
@[simp] theorem State.setPc_history (v : Word) : (s.setPc v).history = s.history := rfl
@[simp] theorem State.setPc_params (v : Word) : (s.setPc v).params = s.params := rfl
@[simp] theorem State.setPc_reg (v : Word) (q : RegIdx) : (s.setPc v).reg q = s.reg q := rfl
@[simp] theorem State.setPc_cell (v : Word) (x : Word) : (s.setPc v).cell x = s.cell x := rfl

/-! ### setCond -/

@[simp] theorem State.setCond_regs (c : Cond) : (s.setCond c).regs = s.regs := rfl
@[simp] theorem State.setCond_pc (c : Cond) : (s.setCond c).pc = s.pc := rfl
@[simp] theorem State.setCond_cond (c : Cond) : (s.setCond c).cond = c := rfl
@[simp] theorem State.setCond_run (c : Cond) : (s.setCond c).run = s.run := rfl
@[simp] theorem State.setCond_cause (c : Cond) : (s.setCond c).cause = s.cause := rfl
@[simp] theorem State.setCond_mem (c : Cond) : (s.setCond c).mem = s.mem := rfl
@[simp] theorem State.setCond_ipc (c : Cond) : (s.setCond c).ipc = s.ipc := rfl
@[simp] theorem State.setCond_ir (c : Cond) : (s.setCond c).ir = s.ir := rfl
@[simp] theorem State.setCond_input (c : Cond) : (s.setCond c).input = s.input := rfl
@[simp] theorem State.setCond_stopPending (c : Cond) : (s.setCond c).stopPending = s.stopPending := rfl
@[simp] theorem State.setCond_stopIn (c : Cond) : (s.setCond c).stopIn = s.stopIn := rfl
@[simp] theorem State.setCond_history (c : Cond) : (s.setCond c).history = s.history := rfl
@[simp] theorem State.setCond_params (c : Cond) : (s.setCond c).params = s.params := rfl
@[simp] theorem State.setCond_reg (c : Cond) (q : RegIdx) : (s.setCond c).reg q = s.reg q := rfl
@[simp] theorem State.setCond_cell (c : Cond) (x : Word) : (s.setCond c).cell x = s.cell x := rfl

/-! ### setMem -/

@[simp] theorem State.setMem_regs (m : Memory) : (s.setMem m).regs = s.regs := rfl
@[simp] theorem State.setMem_pc (m : Memory) : (s.setMem m).pc = s.pc := rfl
@[simp] theorem State.setMem_cond (m : Memory) : (s.setMem m).cond = s.cond := rfl
@[simp] theorem State.setMem_run (m : Memory) : (s.setMem m).run = s.run := rfl
@[simp] theorem State.setMem_cause (m : Memory) : (s.setMem m).cause = s.cause := rfl
@[simp] theorem State.setMem_mem (m : Memory) : (s.setMem m).mem = m := rfl
@[simp] theorem State.setMem_ipc (m : Memory) : (s.setMem m).ipc = s.ipc := rfl
@[simp] theorem State.setMem_ir (m : Memory) : (s.setMem m).ir = s.ir := rfl
@[simp] theorem State.setMem_input (m : Memory) : (s.setMem m).input = s.input := rfl
@[simp] theorem State.setMem_stopPending (m : Memory) : (s.setMem m).stopPending = s.stopPending := rfl
@[simp] theorem State.setMem_stopIn (m : Memory) : (s.setMem m).stopIn = s.stopIn := rfl
@[simp] theorem State.setMem_history (m : Memory) : (s.setMem m).history = s.history := rfl
@[simp] theorem State.setMem_params (m : Memory) : (s.setMem m).params = s.params := rfl
@[simp] theorem State.setMem_reg (m : Memory) (q : RegIdx) : (s.setMem m).reg q = s.reg q := rfl

/-! ### setInput -/

@[simp] theorem State.setInput_regs (cs : List InChar) : (s.setInput cs).regs = s.regs := rfl
@[simp] theorem State.setInput_pc (cs : List InChar) : (s.setInput cs).pc = s.pc := rfl
@[simp] theorem State.setInput_cond (cs : List InChar) : (s.setInput cs).cond = s.cond := rfl
@[simp] theorem State.setInput_run (cs : List InChar) : (s.setInput cs).run = s.run := rfl
@[simp] theorem State.setInput_cause (cs : List InChar) : (s.setInput cs).cause = s.cause := rfl
@[simp] theorem State.setInput_mem (cs : List InChar) : (s.setInput cs).mem = s.mem := rfl
@[simp] theorem State.setInput_ipc (cs : List InChar) : (s.setInput cs).ipc = s.ipc := rfl
@[simp] theorem State.setInput_ir (cs : List InChar) : (s.setInput cs).ir = s.ir := rfl
@[simp] theorem State.setInput_input (cs : List InChar) : (s.setInput cs).input = cs := rfl
@[simp] theorem State.setInput_stopPending (cs : List InChar) : (s.setInput cs).stopPending = s.stopPending := rfl
@[simp] theorem State.setInput_stopIn (cs : List InChar) : (s.setInput cs).stopIn = s.stopIn := rfl
@[simp] theorem State.setInput_history (cs : List InChar) : (s.setInput cs).history = s.history := rfl
@[simp] theorem State.setInput_params (cs : List InChar) : (s.setInput cs).params = s.params := rfl
@[simp] theorem State.setInput_reg (cs : List InChar) (q : RegIdx) : (s.setInput cs).reg q = s.reg q := rfl
@[simp] theorem State.setInput_cell (cs : List InChar) (x : Word) : (s.setInput cs).cell x = s.cell x := rfl

/-! ### emit -/

@[simp] theorem State.emit_regs (e : Event) : (s.emit e).regs = s.regs := rfl
@[simp] theorem State.emit_pc (e : Event) : (s.emit e).pc = s.pc := rfl
@[simp] theorem State.emit_cond (e : Event) : (s.emit e).cond = s.cond := rfl
@[simp] theorem State.emit_run (e : Event) : (s.emit e).run = s.run := rfl
@[simp] theorem State.emit_cause (e : Event) : (s.emit e).cause = s.cause := rfl
@[simp] theorem State.emit_mem (e : Event) : (s.emit e).mem = s.mem := rfl
@[simp] theorem State.emit_ipc (e : Event) : (s.emit e).ipc = s.ipc := rfl
@[simp] theorem State.emit_ir (e : Event) : (s.emit e).ir = s.ir := rfl
@[simp] theorem State.emit_input (e : Event) : (s.emit e).input = s.input := rfl
@[simp] theorem State.emit_stopPending (e : Event) : (s.emit e).stopPending = s.stopPending := rfl
@[simp] theorem State.emit_stopIn (e : Event) : (s.emit e).stopIn = s.stopIn := rfl
@[simp] theorem State.emit_history (e : Event) : (s.emit e).history = s.history ++ [e] := rfl
@[simp] theorem State.emit_params (e : Event) : (s.emit e).params = s.params := rfl
@[simp] theorem State.emit_reg (e : Event) (q : RegIdx) : (s.emit e).reg q = s.reg q := rfl
@[simp] theorem State.emit_cell (e : Event) (x : Word) : (s.emit e).cell x = s.cell x := rfl

/-! ### stopWith -/

@[simp] theorem State.stopWith_regs (c : StopCause) : (s.stopWith c).regs = s.regs := rfl
@[simp] theorem State.stopWith_pc (c : StopCause) : (s.stopWith c).pc = s.pc := rfl
@[simp] theorem State.stopWith_cond (c : StopCause) : (s.stopWith c).cond = s.cond := rfl
@[simp] theorem State.stopWith_run (c : StopCause) : (s.stopWith c).run = .halted := rfl
@[simp] theorem State.stopWith_cause (c : StopCause) : (s.stopWith c).cause = c := rfl
@[simp] theorem State.stopWith_mem (c : StopCause) : (s.stopWith c).mem = s.mem := rfl
@[simp] theorem State.stopWith_ipc (c : StopCause) : (s.stopWith c).ipc = s.ipc := rfl
@[simp] theorem State.stopWith_ir (c : StopCause) : (s.stopWith c).ir = s.ir := rfl
@[simp] theorem State.stopWith_input (c : StopCause) : (s.stopWith c).input = s.input := rfl
@[simp] theorem State.stopWith_stopPending (c : StopCause) : (s.stopWith c).stopPending = s.stopPending := rfl
@[simp] theorem State.stopWith_stopIn (c : StopCause) : (s.stopWith c).stopIn = s.stopIn := rfl
@[simp] theorem State.stopWith_history (c : StopCause) : (s.stopWith c).history = s.history := rfl
@[simp] theorem State.stopWith_params (c : StopCause) : (s.stopWith c).params = s.params := rfl
@[simp] theorem State.stopWith_reg (c : StopCause) (q : RegIdx) : (s.stopWith c).reg q = s.reg q := rfl
@[simp] theorem State.stopWith_cell (c : StopCause) (x : Word) : (s.stopWith c).cell x = s.cell x := rfl

/-! ### setStop -/

@[simp] theorem State.setStop_regs (b : Bool) (k : Option Nat) : (s.setStop b k).regs = s.regs := rfl
@[simp] theorem State.setStop_pc (b : Bool) (k : Option Nat) : (s.setStop b k).pc = s.pc := rfl
@[simp] theorem State.setStop_cond (b : Bool) (k : Option Nat) : (s.setStop b k).cond = s.cond := rfl
@[simp] theorem State.setStop_run (b : Bool) (k : Option Nat) : (s.setStop b k).run = s.run := rfl
@[simp] theorem State.setStop_cause (b : Bool) (k : Option Nat) : (s.setStop b k).cause = s.cause := rfl
@[simp] theorem State.setStop_mem (b : Bool) (k : Option Nat) : (s.setStop b k).mem = s.mem := rfl
@[simp] theorem State.setStop_ipc (b : Bool) (k : Option Nat) : (s.setStop b k).ipc = s.ipc := rfl
@[simp] theorem State.setStop_ir (b : Bool) (k : Option Nat) : (s.setStop b k).ir = s.ir := rfl
@[simp] theorem State.setStop_input (b : Bool) (k : Option Nat) : (s.setStop b k).input = s.input := rfl
@[simp] theorem State.setStop_stopPending (b : Bool) (k : Option Nat) : (s.setStop b k).stopPending = b := rfl
@[simp] theorem State.setStop_stopIn (b : Bool) (k : Option Nat) : (s.setStop b k).stopIn = k := rfl
@[simp] theorem State.setStop_history (b : Bool) (k : Option Nat) : (s.setStop b k).history = s.history := rfl
@[simp] theorem State.setStop_params (b : Bool) (k : Option Nat) : (s.setStop b k).params = s.params := rfl
@[simp] theorem State.setStop_reg (b : Bool) (k : Option Nat) (q : RegIdx) : (s.setStop b k).reg q = s.reg q := rfl
@[simp] theorem State.setStop_cell (b : Bool) (k : Option Nat) (x : Word) : (s.setStop b k).cell x = s.cell x := rfl

/-! ### setFetched -/

@[simp] theorem State.setFetched_regs (a w : Word) : (s.setFetched a w).regs = s.regs := rfl
@[simp] theorem State.setFetched_pc (a w : Word) : (s.setFetched a w).pc = s.pc := rfl
@[simp] theorem State.setFetched_cond (a w : Word) : (s.setFetched a w).cond = s.cond := rfl
@[simp] theorem State.setFetched_run (a w : Word) : (s.setFetched a w).run = s.run := rfl
@[simp] theorem State.setFetched_cause (a w : Word) : (s.setFetched a w).cause = s.cause := rfl
@[simp] theorem State.setFetched_mem (a w : Word) : (s.setFetched a w).mem = s.mem := rfl
@[simp] theorem State.setFetched_ipc (a w : Word) : (s.setFetched a w).ipc = a := rfl
@[simp] theorem State.setFetched_ir (a w : Word) : (s.setFetched a w).ir = w := rfl
@[simp] theorem State.setFetched_input (a w : Word) : (s.setFetched a w).input = s.input := rfl
@[simp] theorem State.setFetched_stopPending (a w : Word) : (s.setFetched a w).stopPending = s.stopPending := rfl
@[simp] theorem State.setFetched_stopIn (a w : Word) : (s.setFetched a w).stopIn = s.stopIn := rfl
@[simp] theorem State.setFetched_history (a w : Word) : (s.setFetched a w).history = s.history := rfl
@[simp] theorem State.setFetched_params (a w : Word) : (s.setFetched a w).params = s.params := rfl
@[simp] theorem State.setFetched_reg (a w : Word) (q : RegIdx) : (s.setFetched a w).reg q = s.reg q := rfl
@[simp] theorem State.setFetched_cell (a w : Word) (x : Word) : (s.setFetched a w).cell x = s.cell x := rfl

/-! ### Register reads after register writes (R21) -/

@[simp] theorem State.reg_setReg_same (r : RegIdx) (v : Word) : (s.setReg r v).reg r = v := by
  simp [State.reg, State.setReg]

theorem State.reg_setReg_other {r q : RegIdx} (h : q ≠ r) (v : Word) : (s.setReg r v).reg q = s.reg q := by
  have h' : r.toNat ≠ q.toNat := fun e => h (BitVec.eq_of_toNat_eq e.symm)
  simp [State.reg, State.setReg, Vector.getElem_set_ne, h']

theorem State.reg_setReg (r q : RegIdx) (v : Word) : (s.setReg r v).reg q = if q = r then v else s.reg q := by
  split
  · next h => subst h; simp
  · next h => exact s.reg_setReg_other h v

/-- Two states with equal registers have equal register files. -/
theorem State.regs_ext {s t : State} (h : ∀ r, s.reg r = t.reg r) : s.regs = t.regs := by
  apply Vector.ext
  intro i hi
  simpa [State.reg, Nat.mod_eq_of_lt (show i < 8 from hi)] using h (BitVec.ofNat 3 i)

end Sys2Proof.Machine
end

