-- ==== Sys2Proof/Laws/Ops.lean ====
section
/-! SUPPORT. The shared operations: what each does to every field, to registers and to cells, said once. -/

namespace Sys2Proof.Machine

variable (s : State)

/-! ### Operations that are one named update -/

@[simp] theorem State.outPut_eq (c : Byte) : s.outPut c = s.emit (.outPut c) := rfl
@[simp] theorem State.report_eq (d : Diag) : s.report d = s.emit (.diag d) := rfl
@[simp] theorem State.halt_eq : s.halt = s.stopWith .halt := rfl
@[simp] theorem State.takeStop_eq : s.takeStop = s.stopWith .interrupted := rfl
@[simp] theorem State.raiseStop_eq : s.raiseStop = (s.setStop true none).emit .stopReq := rfl
@[simp] theorem State.setcc_eq (v : Word) : s.setcc v = s.setCond (flagOf v) := rfl
@[simp] theorem State.link_eq : s.link = s.setReg 7#3 s.pc := rfl

/-! ### setCell (R53) -/

@[simp] theorem State.setCell_regs (a v : Word) : (s.setCell a v).regs = s.regs := rfl
@[simp] theorem State.setCell_pc (a v : Word) : (s.setCell a v).pc = s.pc := rfl
@[simp] theorem State.setCell_cond (a v : Word) : (s.setCell a v).cond = s.cond := rfl
@[simp] theorem State.setCell_run (a v : Word) : (s.setCell a v).run = s.run := rfl
@[simp] theorem State.setCell_cause (a v : Word) : (s.setCell a v).cause = s.cause := rfl
@[simp] theorem State.setCell_ipc (a v : Word) : (s.setCell a v).ipc = s.ipc := rfl
@[simp] theorem State.setCell_ir (a v : Word) : (s.setCell a v).ir = s.ir := rfl
@[simp] theorem State.setCell_input (a v : Word) : (s.setCell a v).input = s.input := rfl
@[simp] theorem State.setCell_stopPending (a v : Word) : (s.setCell a v).stopPending = s.stopPending := rfl
@[simp] theorem State.setCell_stopIn (a v : Word) : (s.setCell a v).stopIn = s.stopIn := rfl
@[simp] theorem State.setCell_history (a v : Word) : (s.setCell a v).history = s.history := rfl
@[simp] theorem State.setCell_params (a v : Word) : (s.setCell a v).params = s.params := rfl
@[simp] theorem State.setCell_reg (a v : Word) (q : RegIdx) : (s.setCell a v).reg q = s.reg q := by simp [State.reg]

theorem State.cell_setCell (a b v : Word) : (s.setCell a v).cell b = if b = a then v else s.cell b := by
  simp [State.cell, State.setCell, Memory.read_write, BitVec.toNat_inj]

@[simp] theorem State.cell_setCell_same (a v : Word) : (s.setCell a v).cell a = v := by simp [State.cell_setCell]

theorem State.cell_setCell_other {a b : Word} (h : b ≠ a) (v : Word) : (s.setCell a v).cell b = s.cell b := by
  simp [State.cell_setCell, h]

/-! ### writeResult (R28) -/

@[simp] theorem State.writeResult_pc (r : RegIdx) (v : Word) : (s.writeResult r v).pc = s.pc := rfl
@[simp] theorem State.writeResult_run (r : RegIdx) (v : Word) : (s.writeResult r v).run = s.run := rfl
@[simp] theorem State.writeResult_cause (r : RegIdx) (v : Word) : (s.writeResult r v).cause = s.cause := rfl
@[simp] theorem State.writeResult_mem (r : RegIdx) (v : Word) : (s.writeResult r v).mem = s.mem := rfl
@[simp] theorem State.writeResult_ipc (r : RegIdx) (v : Word) : (s.writeResult r v).ipc = s.ipc := rfl
@[simp] theorem State.writeResult_ir (r : RegIdx) (v : Word) : (s.writeResult r v).ir = s.ir := rfl
@[simp] theorem State.writeResult_input (r : RegIdx) (v : Word) : (s.writeResult r v).input = s.input := rfl
@[simp] theorem State.writeResult_stopPending (r : RegIdx) (v : Word) : (s.writeResult r v).stopPending = s.stopPending := rfl
@[simp] theorem State.writeResult_stopIn (r : RegIdx) (v : Word) : (s.writeResult r v).stopIn = s.stopIn := rfl
@[simp] theorem State.writeResult_history (r : RegIdx) (v : Word) : (s.writeResult r v).history = s.history := rfl
@[simp] theorem State.writeResult_params (r : RegIdx) (v : Word) : (s.writeResult r v).params = s.params := rfl
@[simp] theorem State.writeResult_cond (r : RegIdx) (v : Word) : (s.writeResult r v).cond = flagOf v := rfl
@[simp] theorem State.writeResult_cell (r : RegIdx) (v x : Word) : (s.writeResult r v).cell x = s.cell x := rfl
@[simp] theorem State.writeResult_reg_same (r : RegIdx) (v : Word) : (s.writeResult r v).reg r = v :=
  s.reg_setReg_same r v
theorem State.writeResult_reg_other {r q : RegIdx} (h : q ≠ r) (v : Word) : (s.writeResult r v).reg q = s.reg q :=
  s.reg_setReg_other h v

/-! ### outPutAll -/

theorem State.outPutAll_eq (cs : List Byte) :
    s.outPutAll cs = { s with history := s.history ++ cs.map Event.outPut } := by
  induction cs generalizing s with
  | nil => simp [State.outPutAll]
  | cons c cs ih => simp [State.outPutAll, ih]

@[simp] theorem State.outPutAll_history (cs : List Byte) :
    (s.outPutAll cs).history = s.history ++ cs.map Event.outPut := by rw [State.outPutAll_eq]
@[simp] theorem State.outPutAll_regs (cs : List Byte) : (s.outPutAll cs).regs = s.regs := by rw [State.outPutAll_eq]
@[simp] theorem State.outPutAll_pc (cs : List Byte) : (s.outPutAll cs).pc = s.pc := by rw [State.outPutAll_eq]
@[simp] theorem State.outPutAll_cond (cs : List Byte) : (s.outPutAll cs).cond = s.cond := by rw [State.outPutAll_eq]
@[simp] theorem State.outPutAll_run (cs : List Byte) : (s.outPutAll cs).run = s.run := by rw [State.outPutAll_eq]
@[simp] theorem State.outPutAll_cause (cs : List Byte) : (s.outPutAll cs).cause = s.cause := by rw [State.outPutAll_eq]
@[simp] theorem State.outPutAll_mem (cs : List Byte) : (s.outPutAll cs).mem = s.mem := by rw [State.outPutAll_eq]
@[simp] theorem State.outPutAll_ipc (cs : List Byte) : (s.outPutAll cs).ipc = s.ipc := by rw [State.outPutAll_eq]
@[simp] theorem State.outPutAll_ir (cs : List Byte) : (s.outPutAll cs).ir = s.ir := by rw [State.outPutAll_eq]
@[simp] theorem State.outPutAll_input (cs : List Byte) : (s.outPutAll cs).input = s.input := by rw [State.outPutAll_eq]
@[simp] theorem State.outPutAll_stopPending (cs : List Byte) : (s.outPutAll cs).stopPending = s.stopPending := by rw [State.outPutAll_eq]
@[simp] theorem State.outPutAll_stopIn (cs : List Byte) : (s.outPutAll cs).stopIn = s.stopIn := by rw [State.outPutAll_eq]
@[simp] theorem State.outPutAll_params (cs : List Byte) : (s.outPutAll cs).params = s.params := by rw [State.outPutAll_eq]
@[simp] theorem State.outPutAll_reg (cs : List Byte) (q : RegIdx) : (s.outPutAll cs).reg q = s.reg q := by simp [State.reg]
@[simp] theorem State.outPutAll_cell (cs : List Byte) (x : Word) : (s.outPutAll cs).cell x = s.cell x := by
  simp [State.cell]

/-! ### trapEntry (R150, R189) -/

@[simp] theorem State.trapEntry_pc : (s.trapEntry).pc = s.pc := by unfold State.trapEntry; split <;> rfl
@[simp] theorem State.trapEntry_cond : (s.trapEntry).cond = s.cond := by unfold State.trapEntry; split <;> rfl
@[simp] theorem State.trapEntry_run : (s.trapEntry).run = s.run := by unfold State.trapEntry; split <;> rfl
@[simp] theorem State.trapEntry_cause : (s.trapEntry).cause = s.cause := by unfold State.trapEntry; split <;> rfl
@[simp] theorem State.trapEntry_mem : (s.trapEntry).mem = s.mem := by unfold State.trapEntry; split <;> rfl
@[simp] theorem State.trapEntry_ipc : (s.trapEntry).ipc = s.ipc := by unfold State.trapEntry; split <;> rfl
@[simp] theorem State.trapEntry_ir : (s.trapEntry).ir = s.ir := by unfold State.trapEntry; split <;> rfl
@[simp] theorem State.trapEntry_input : (s.trapEntry).input = s.input := by unfold State.trapEntry; split <;> rfl
@[simp] theorem State.trapEntry_stopPending : (s.trapEntry).stopPending = s.stopPending := by unfold State.trapEntry; split <;> rfl
@[simp] theorem State.trapEntry_stopIn : (s.trapEntry).stopIn = s.stopIn := by unfold State.trapEntry; split <;> rfl
@[simp] theorem State.trapEntry_history : (s.trapEntry).history = s.history := by unfold State.trapEntry; split <;> rfl
@[simp] theorem State.trapEntry_params : (s.trapEntry).params = s.params := by unfold State.trapEntry; split <;> rfl
@[simp] theorem State.trapEntry_cell (x : Word) : s.trapEntry.cell x = s.cell x := by simp [State.cell]

/-- R7 after the trap entry. -/
@[simp] theorem State.trapEntry_reg7 : s.trapEntry.reg 7#3 = if s.params.trapLinksR7 then s.pc else s.reg 7#3 := by
  unfold State.trapEntry
  split <;> simp

theorem State.trapEntry_reg_other {q : RegIdx} (h : q ≠ 7#3) : s.trapEntry.reg q = s.reg q := by
  unfold State.trapEntry
  split
  · exact s.reg_setReg_other h _
  · rfl

@[simp] theorem State.trapEntry_reg0 : s.trapEntry.reg 0#3 = s.reg 0#3 := s.trapEntry_reg_other (by decide)

/-! ### The keyboard poll and MemRead (R55, R56) -/

@[simp] theorem State.kbsrPoll_regs : s.kbsrPoll.regs = s.regs := by unfold State.kbsrPoll; split <;> rfl
@[simp] theorem State.kbsrPoll_pc : s.kbsrPoll.pc = s.pc := by unfold State.kbsrPoll; split <;> rfl
@[simp] theorem State.kbsrPoll_cond : s.kbsrPoll.cond = s.cond := by unfold State.kbsrPoll; split <;> rfl
@[simp] theorem State.kbsrPoll_run : s.kbsrPoll.run = s.run := by unfold State.kbsrPoll; split <;> rfl
@[simp] theorem State.kbsrPoll_cause : s.kbsrPoll.cause = s.cause := by unfold State.kbsrPoll; split <;> rfl
@[simp] theorem State.kbsrPoll_ipc : s.kbsrPoll.ipc = s.ipc := by unfold State.kbsrPoll; split <;> rfl
@[simp] theorem State.kbsrPoll_ir : s.kbsrPoll.ir = s.ir := by unfold State.kbsrPoll; split <;> rfl
@[simp] theorem State.kbsrPoll_stopPending : s.kbsrPoll.stopPending = s.stopPending := by unfold State.kbsrPoll; split <;> rfl
@[simp] theorem State.kbsrPoll_stopIn : s.kbsrPoll.stopIn = s.stopIn := by unfold State.kbsrPoll; split <;> rfl
@[simp] theorem State.kbsrPoll_params : s.kbsrPoll.params = s.params := by unfold State.kbsrPoll; split <;> rfl
@[simp] theorem State.kbsrPoll_reg (q : RegIdx) : s.kbsrPoll.reg q = s.reg q := by simp [State.reg]

/-- A poll changes no cell but KBSR and KBDR. -/
theorem State.kbsrPoll_cell_other {x : Word} (h1 : x ≠ Config.kbsr) (h2 : x ≠ Config.kbdr) :
    s.kbsrPoll.cell x = s.cell x := by
  unfold State.kbsrPoll
  split <;> simp [State.cell_setCell, h1, h2]

@[simp] theorem State.afterRead_regs (a : Word) : (s.afterRead a).regs = s.regs := by unfold State.afterRead; split <;> simp
@[simp] theorem State.afterRead_pc (a : Word) : (s.afterRead a).pc = s.pc := by unfold State.afterRead; split <;> simp
@[simp] theorem State.afterRead_cond (a : Word) : (s.afterRead a).cond = s.cond := by unfold State.afterRead; split <;> simp
@[simp] theorem State.afterRead_run (a : Word) : (s.afterRead a).run = s.run := by unfold State.afterRead; split <;> simp
@[simp] theorem State.afterRead_cause (a : Word) : (s.afterRead a).cause = s.cause := by unfold State.afterRead; split <;> simp
@[simp] theorem State.afterRead_ipc (a : Word) : (s.afterRead a).ipc = s.ipc := by unfold State.afterRead; split <;> simp
@[simp] theorem State.afterRead_ir (a : Word) : (s.afterRead a).ir = s.ir := by unfold State.afterRead; split <;> simp
@[simp] theorem State.afterRead_stopPending (a : Word) : (s.afterRead a).stopPending = s.stopPending := by unfold State.afterRead; split <;> simp
@[simp] theorem State.afterRead_stopIn (a : Word) : (s.afterRead a).stopIn = s.stopIn := by unfold State.afterRead; split <;> simp
@[simp] theorem State.afterRead_params (a : Word) : (s.afterRead a).params = s.params := by unfold State.afterRead; split <;> simp
@[simp] theorem State.afterRead_reg (a : Word) (q : RegIdx) : (s.afterRead a).reg q = s.reg q := by simp [State.reg]

/-- A read changes no cell but KBSR and KBDR. -/
theorem State.afterRead_cell_other (a : Word) {x : Word} (h1 : x ≠ Config.kbsr) (h2 : x ≠ Config.kbdr) :
    (s.afterRead a).cell x = s.cell x := by
  unfold State.afterRead
  split
  · exact s.kbsrPoll_cell_other h1 h2
  · rfl

/-- A read of any address but KBSR has no effect (R55). -/
theorem State.afterRead_plain {a : Word} (h : a ≠ Config.kbsr) : s.afterRead a = s := by simp [State.afterRead, h]

@[simp] theorem State.memRead_snd (a : Word) : (s.memRead a).2 = s.afterRead a := rfl
@[simp] theorem State.memRead_fst (a : Word) : (s.memRead a).1 = (s.afterRead a).cell a := rfl

theorem State.memRead_plain {a : Word} (h : a ≠ Config.kbsr) : s.memRead a = (s.cell a, s) := by
  simp [State.memRead, s.afterRead_plain h]

/-! ### MemWrite (R59) -/

/-- Everything `memWrite` can do, one case per rule R60, R61 (twice), R62, R63. -/
theorem State.memWrite_cases (a v : Word) :
    (a = Config.ddr ∧ s.memWrite a v = s.outPut (lowByte v)) ∨
    (a = Config.mcr ∧ v.getLsbD 15 = false ∧ s.memWrite a v = s.halt) ∨
    (a = Config.mcr ∧ v.getLsbD 15 = true ∧ s.memWrite a v = s) ∨
    (a ≤ Config.protectedTop ∧ s.memWrite a v = s.report (.protWrite s.ipc a v)) ∨
    (a ≠ Config.ddr ∧ a ≠ Config.mcr ∧ Config.protectedTop < a ∧ s.memWrite a v = s.setCell a v) := by
  unfold State.memWrite
  by_cases h1 : a = Config.ddr
  · simp [h1]
  by_cases h2 : a = Config.mcr
  · have h3 : Config.mcr ≠ Config.ddr := by decide
    cases hv : v.getLsbD 15 <;> simp [h2, h3]
  by_cases h3 : a ≤ Config.protectedTop
  · simp [h1, h2, h3]
  · simp only [h1, h2, h3, if_false, false_and, false_or, not_false_eq_true, true_and, ne_eq]
    exact ⟨BitVec.not_le.1 h3, trivial⟩

@[simp] theorem State.memWrite_regs (a v : Word) : (s.memWrite a v).regs = s.regs := by
  rcases s.memWrite_cases a v with ⟨_, h⟩ | ⟨_, _, h⟩ | ⟨_, _, h⟩ | ⟨_, h⟩ | ⟨_, _, _, h⟩ <;> rw [h] <;> rfl
@[simp] theorem State.memWrite_pc (a v : Word) : (s.memWrite a v).pc = s.pc := by
  rcases s.memWrite_cases a v with ⟨_, h⟩ | ⟨_, _, h⟩ | ⟨_, _, h⟩ | ⟨_, h⟩ | ⟨_, _, _, h⟩ <;> rw [h] <;> rfl
@[simp] theorem State.memWrite_cond (a v : Word) : (s.memWrite a v).cond = s.cond := by
  rcases s.memWrite_cases a v with ⟨_, h⟩ | ⟨_, _, h⟩ | ⟨_, _, h⟩ | ⟨_, h⟩ | ⟨_, _, _, h⟩ <;> rw [h] <;> rfl
@[simp] theorem State.memWrite_ipc (a v : Word) : (s.memWrite a v).ipc = s.ipc := by
  rcases s.memWrite_cases a v with ⟨_, h⟩ | ⟨_, _, h⟩ | ⟨_, _, h⟩ | ⟨_, h⟩ | ⟨_, _, _, h⟩ <;> rw [h] <;> rfl
@[simp] theorem State.memWrite_ir (a v : Word) : (s.memWrite a v).ir = s.ir := by
  rcases s.memWrite_cases a v with ⟨_, h⟩ | ⟨_, _, h⟩ | ⟨_, _, h⟩ | ⟨_, h⟩ | ⟨_, _, _, h⟩ <;> rw [h] <;> rfl
@[simp] theorem State.memWrite_input (a v : Word) : (s.memWrite a v).input = s.input := by
  rcases s.memWrite_cases a v with ⟨_, h⟩ | ⟨_, _, h⟩ | ⟨_, _, h⟩ | ⟨_, h⟩ | ⟨_, _, _, h⟩ <;> rw [h] <;> rfl
@[simp] theorem State.memWrite_stopPending (a v : Word) : (s.memWrite a v).stopPending = s.stopPending := by
  rcases s.memWrite_cases a v with ⟨_, h⟩ | ⟨_, _, h⟩ | ⟨_, _, h⟩ | ⟨_, h⟩ | ⟨_, _, _, h⟩ <;> rw [h] <;> rfl
@[simp] theorem State.memWrite_stopIn (a v : Word) : (s.memWrite a v).stopIn = s.stopIn := by
  rcases s.memWrite_cases a v with ⟨_, h⟩ | ⟨_, _, h⟩ | ⟨_, _, h⟩ | ⟨_, h⟩ | ⟨_, _, _, h⟩ <;> rw [h] <;> rfl
@[simp] theorem State.memWrite_params (a v : Word) : (s.memWrite a v).params = s.params := by
  rcases s.memWrite_cases a v with ⟨_, h⟩ | ⟨_, _, h⟩ | ⟨_, _, h⟩ | ⟨_, h⟩ | ⟨_, _, _, h⟩ <;> rw [h] <;> rfl
@[simp] theorem State.memWrite_reg (a v : Word) (q : RegIdx) : (s.memWrite a v).reg q = s.reg q := by simp [State.reg]

/-- A write changes no cell but its own. -/
theorem State.memWrite_cell_other {a x : Word} (hx : x ≠ a) (v : Word) : (s.memWrite a v).cell x = s.cell x := by
  rcases s.memWrite_cases a v with ⟨_, h⟩ | ⟨_, _, h⟩ | ⟨_, _, h⟩ | ⟨_, h⟩ | ⟨_, _, _, h⟩ <;> rw [h]
  all_goals first | rfl | exact s.cell_setCell_other hx v

/-! ### Loads -/

@[simp] theorem State.loadInto_pc (r : RegIdx) (a : Word) : (s.loadInto r a).pc = s.pc := by simp [State.loadInto]
@[simp] theorem State.loadInto_run (r : RegIdx) (a : Word) : (s.loadInto r a).run = s.run := by simp [State.loadInto]
@[simp] theorem State.loadInto_cause (r : RegIdx) (a : Word) : (s.loadInto r a).cause = s.cause := by simp [State.loadInto]
@[simp] theorem State.loadInto_ipc (r : RegIdx) (a : Word) : (s.loadInto r a).ipc = s.ipc := by simp [State.loadInto]
@[simp] theorem State.loadInto_ir (r : RegIdx) (a : Word) : (s.loadInto r a).ir = s.ir := by simp [State.loadInto]
@[simp] theorem State.loadInto_stopPending (r : RegIdx) (a : Word) : (s.loadInto r a).stopPending = s.stopPending := by simp [State.loadInto]
@[simp] theorem State.loadInto_stopIn (r : RegIdx) (a : Word) : (s.loadInto r a).stopIn = s.stopIn := by simp [State.loadInto]
@[simp] theorem State.loadInto_params (r : RegIdx) (a : Word) : (s.loadInto r a).params = s.params := by simp [State.loadInto]

/-! ### takeChar and takeMany (R151) -/

theorem State.takeChar_none_iff : s.takeChar = none ↔ s.input = [] := by
  unfold State.takeChar
  split <;> simp_all

theorem State.takeChar_cons {c : InChar} {rest : List InChar} (h : s.input = c :: rest) :
    s.takeChar = some (c.char, (s.setInput rest).emit (.inTake c.char)) := by
  simp [State.takeChar, h]

/-- Taking as many characters as there are in `pre`. -/
theorem State.takeMany_append (pre rest : List InChar) (h : s.input = pre ++ rest) :
    s.takeMany pre.length =
      { s with input := rest, history := s.history ++ pre.map (fun c => Event.inTake c.char) } := by
  induction pre generalizing s with
  | nil => cases s; simp_all [State.takeMany]
  | cons c pre ih =>
    simp only [List.length_cons, State.takeMany, s.takeChar_cons h]
    rw [ih _ rfl]
    simp [State.setInput, State.emit]

/-! ### The fetch (R39) -/

@[simp] theorem State.fetch_regs : s.fetch.regs = s.regs := by
  unfold State.fetch State.traceFetch; simp only; split <;> simp
@[simp] theorem State.fetch_cond : s.fetch.cond = s.cond := by
  unfold State.fetch State.traceFetch; simp only; split <;> simp
@[simp] theorem State.fetch_run : s.fetch.run = s.run := by
  unfold State.fetch State.traceFetch; simp only; split <;> simp
@[simp] theorem State.fetch_cause : s.fetch.cause = s.cause := by
  unfold State.fetch State.traceFetch; simp only; split <;> simp
@[simp] theorem State.fetch_stopPending : s.fetch.stopPending = s.stopPending := by
  unfold State.fetch State.traceFetch; simp only; split <;> simp
@[simp] theorem State.fetch_stopIn : s.fetch.stopIn = s.stopIn := by
  unfold State.fetch State.traceFetch; simp only; split <;> simp
@[simp] theorem State.fetch_params : s.fetch.params = s.params := by
  unfold State.fetch State.traceFetch; simp only; split <;> simp
@[simp] theorem State.fetch_reg (q : RegIdx) : s.fetch.reg q = s.reg q := by simp [State.reg]
@[simp] theorem State.fetch_pc : s.fetch.pc = s.pc + 1#16 := by
  unfold State.fetch State.traceFetch; simp only; split <;> simp
@[simp] theorem State.fetch_ipc : s.fetch.ipc = s.pc := by
  unfold State.fetch State.traceFetch; simp only; split <;> simp
@[simp] theorem State.fetch_ir : s.fetch.ir = (s.memRead s.pc).1 := by
  unfold State.fetch State.traceFetch; simp only; split <;> simp
@[simp] theorem State.fetch_mem : s.fetch.mem = (s.afterRead s.pc).mem := by
  unfold State.fetch State.traceFetch; simp only; split <;> simp
@[simp] theorem State.fetch_cell (x : Word) : s.fetch.cell x = (s.afterRead s.pc).cell x := by simp [State.cell]
@[simp] theorem State.fetch_input : s.fetch.input = (s.afterRead s.pc).input := by
  unfold State.fetch State.traceFetch; simp only; split <;> simp

/-! ### The end of a step -/

@[simp] theorem State.hostTick_regs : s.hostTick.regs = s.regs := by unfold State.hostTick; split <;> rfl
@[simp] theorem State.hostTick_pc : s.hostTick.pc = s.pc := by unfold State.hostTick; split <;> rfl
@[simp] theorem State.hostTick_cond : s.hostTick.cond = s.cond := by unfold State.hostTick; split <;> rfl
@[simp] theorem State.hostTick_run : s.hostTick.run = s.run := by unfold State.hostTick; split <;> rfl
@[simp] theorem State.hostTick_cause : s.hostTick.cause = s.cause := by unfold State.hostTick; split <;> rfl
@[simp] theorem State.hostTick_mem : s.hostTick.mem = s.mem := by unfold State.hostTick; split <;> rfl
@[simp] theorem State.hostTick_ipc : s.hostTick.ipc = s.ipc := by unfold State.hostTick; split <;> rfl
@[simp] theorem State.hostTick_ir : s.hostTick.ir = s.ir := by unfold State.hostTick; split <;> rfl
@[simp] theorem State.hostTick_input : s.hostTick.input = s.input := by unfold State.hostTick; split <;> rfl
@[simp] theorem State.hostTick_params : s.hostTick.params = s.params := by unfold State.hostTick; split <;> rfl
@[simp] theorem State.hostTick_reg (q : RegIdx) : s.hostTick.reg q = s.reg q := by simp [State.reg]
@[simp] theorem State.hostTick_cell (x : Word) : s.hostTick.cell x = s.cell x := by simp [State.cell]

end Sys2Proof.Machine
end

