-- ==== Sys2Proof/Laws/Effects.lean ====
section
/-! SUPPORT. What an instruction and a step can do to the state, said once: a chain of primitive effects. An invariant of the
machine is proved by checking each primitive effect (`step_induction`). -/

namespace Sys2Proof.Machine

open Relation (ReflTransGen)
open Host (Outcome)

/-- The primitive effects of an instruction (R22, R28, R59-R63, R151, R181). -/
inductive ExecEffect : State → State → Prop where
  | setReg (s : State) (r : RegIdx) (v : Word) : ExecEffect s (s.setReg r v)
  | setPc (s : State) (v : Word) : ExecEffect s (s.setPc v)
  | setCond (s : State) (c : Cond) : ExecEffect s (s.setCond c)
  | outPut (s : State) (c : Byte) : ExecEffect s (s.outPut c)
  | report (s : State) (d : Diag) : ExecEffect s (s.report d)
  | poll (s : State) : ExecEffect s s.kbsrPoll
  | take (s : State) (c : InChar) (rest : List InChar) (h : s.input = c :: rest) :
      ExecEffect s ((s.setInput rest).emit (.inTake c.char))
  | store (s : State) (a v : Word) (h1 : a ≠ Config.ddr) (h2 : a ≠ Config.mcr) (h3 : Config.protectedTop < a) :
      ExecEffect s (s.setCell a v)
  | halt (s : State) : ExecEffect s s.halt

/-- The primitive effects of a step: an instruction's, the fetch's, the host's, the taking of the stop request. -/
inductive StepEffect : State → State → Prop where
  | exec {s t : State} (h : ExecEffect s t) : StepEffect s t
  | setFetched (s : State) (a w : Word) : StepEffect s (s.setFetched a w)
  | trace (s : State) : StepEffect s (s.emit (.trace s.ipc s.ir s.regs s.cond))
  | raiseStop (s : State) : StepEffect s s.raiseStop
  | hostWait (s : State) (k : Nat) : StepEffect s (s.setStop s.stopPending (some k))
  | takeStop (s : State) : StepEffect s s.takeStop

theorem ExecEffect.of_writeResult (s : State) (r : RegIdx) (v : Word) : ReflTransGen ExecEffect s (s.writeResult r v) :=
  .tail (.single (.setReg s r v)) (.setCond _ _)

theorem ExecEffect.of_afterRead (s : State) (a : Word) : ReflTransGen ExecEffect s (s.afterRead a) := by
  unfold State.afterRead
  split
  · exact .single (.poll s)
  · exact .refl

theorem ExecEffect.of_memWrite (s : State) (a v : Word) : ReflTransGen ExecEffect s (s.memWrite a v) := by
  rcases s.memWrite_cases a v with ⟨_, h⟩ | ⟨_, _, h⟩ | ⟨_, _, h⟩ | ⟨_, h⟩ | ⟨h1, h2, h3, h⟩
  · exact h ▸ .single (.outPut s _)
  · exact h ▸ .single (.halt s)
  · exact h.symm ▸ ReflTransGen.refl
  · exact h ▸ .single (.report s _)
  · exact h ▸ .single (.store s a v h1 h2 h3)

theorem ExecEffect.of_loadInto (s : State) (r : RegIdx) (a : Word) : ReflTransGen ExecEffect s (s.loadInto r a) :=
  (ExecEffect.of_afterRead s a).trans (ExecEffect.of_writeResult _ _ _)

theorem ExecEffect.of_trapEntry (s : State) : ReflTransGen ExecEffect s s.trapEntry := by
  unfold State.trapEntry
  split
  · exact .single (.setReg s _ _)
  · exact .refl

theorem ExecEffect.of_outPutAll (s : State) (cs : List Byte) : ReflTransGen ExecEffect s (s.outPutAll cs) := by
  induction cs generalizing s with
  | nil => exact .refl
  | cons c cs ih => exact (ReflTransGen.single (.outPut s c)).trans (ih _)

theorem ExecEffect.of_takeMany (s : State) (k : Nat) : ReflTransGen ExecEffect s (s.takeMany k) := by
  induction k generalizing s with
  | zero => exact .refl
  | succ k ih =>
    cases h : s.input with
    | nil =>
      have h' := s.takeChar_none_iff.2 h
      simpa [State.takeMany, h'] using ReflTransGen.refl
    | cons c rest =>
      simp only [State.takeMany, s.takeChar_cons h]
      exact (ReflTransGen.single (.take s c rest h)).trans (ih _)

/-- The string loop is a chain of reads and of what `send` does. -/
theorem ExecEffect.of_stringLoop {send : Word → State → State} (hsend : ∀ w s, ReflTransGen ExecEffect s (send w s))
    (fuel : Nat) (a : Word) (s : State) : ReflTransGen ExecEffect s (stringLoop send fuel a s) := by
  induction fuel generalizing a s with
  | zero => exact .refl
  | succ fuel ih =>
    unfold stringLoop
    simp only
    split
    · exact ExecEffect.of_afterRead s a
    split
    · exact (ExecEffect.of_afterRead s a).trans (hsend _ _)
    · exact ((ExecEffect.of_afterRead s a).trans (hsend _ _)).trans (ih _ _)

theorem ExecEffect.of_sendWord (w : Word) (s : State) : ReflTransGen ExecEffect s (sendWord w s) :=
  .single (.outPut s _)

theorem ExecEffect.of_sendPacked (w : Word) (s : State) : ReflTransGen ExecEffect s (sendPacked w s) := by
  unfold sendPacked
  split
  · exact .single (.outPut s _)
  · exact .tail (.single (.outPut s _)) (.outPut _ _)

/-- A routine that waits for a character: it faults exactly when none is left, and otherwise continues after the take. -/
theorem State.waitChar_next {s t : State} {k : Byte → State → State} (h : s.waitChar k = .next t) :
    ∃ c rest, s.input = c :: rest ∧ t = k c.char ((s.setInput rest).emit (.inTake c.char)) := by
  cases hi : s.input with
  | nil => simp [State.waitChar, s.takeChar_none_iff.2 hi] at h
  | cons c rest =>
    simp only [State.waitChar, s.takeChar_cons hi, Outcome.next.injEq] at h
    exact ⟨c, rest, rfl, h.symm⟩

theorem ExecEffect.of_routineGetc {s t : State} (h : routineGetc s = .next t) : ReflTransGen ExecEffect s t := by
  obtain ⟨c, rest, hi, rfl⟩ := State.waitChar_next h
  exact (ReflTransGen.single (.take s c rest hi)).trans (ExecEffect.of_writeResult _ _ _)

theorem ExecEffect.of_routineIn {s t : State} (h : routineIn s = .next t) : ReflTransGen ExecEffect s t := by
  obtain ⟨c, rest, hi, rfl⟩ := State.waitChar_next h
  exact ((ExecEffect.of_outPutAll s _).tail (.take _ c rest hi)).tail (.outPut _ _) |>.trans
    (ExecEffect.of_writeResult _ _ _)

/-- INU16 with any parse function: it answers a next state exactly when the parse function does. -/
theorem routineInu16_next {parse : List Byte → Option (Word × Nat)} {s t : State} (h : routineInu16 parse s = .next t) :
    ∃ v k, parse (s.input.map InChar.char) = some (v, k) ∧ t = (s.takeMany k).writeResult 0#3 v := by
  unfold routineInu16 at h
  split at h
  · cases h
  · next v k hp => exact ⟨v, k, hp, by simpa using h.symm⟩

theorem ExecEffect.of_routineInu16 {parse : List Byte → Option (Word × Nat)} {s t : State}
    (h : routineInu16 parse s = .next t) : ReflTransGen ExecEffect s t := by
  obtain ⟨v, k, _, rfl⟩ := routineInu16_next h
  exact (ExecEffect.of_takeMany s k).trans (ExecEffect.of_writeResult _ _ _)

theorem ExecEffect.of_routineHalt (s : State) : ReflTransGen ExecEffect s (routineHalt s) :=
  (ExecEffect.of_outPutAll s _).tail (.halt _)

/-- TRAP with any vector: the routine of a valid vector after the trap entry, BadTrap otherwise (R150, R160). -/
theorem ExecEffect.of_execTrap {vect : Byte} {s t : State} (h : execTrap vect s = .next t) :
    ReflTransGen ExecEffect s t := by
  have e := ExecEffect.of_trapEntry s
  unfold execTrap at h
  repeat' split at h
  · exact e.trans (ExecEffect.of_routineGetc h)
  · cases h; exact e.tail (.outPut _ _)
  · cases h; exact e.trans (ExecEffect.of_stringLoop ExecEffect.of_sendWord _ _ _)
  · exact e.trans (ExecEffect.of_routineIn h)
  · cases h; exact e.trans (ExecEffect.of_stringLoop ExecEffect.of_sendPacked _ _ _)
  · cases h; exact e.trans (ExecEffect.of_routineHalt _)
  · exact e.trans (ExecEffect.of_routineInu16 h)
  · cases h; exact e.trans (ExecEffect.of_outPutAll _ _)
  · cases h; exact .single (.report s _)

/-- Whatever an instruction does is a chain of primitive effects. -/
theorem exec_effects {i : Instr} {s t : State} (h : exec i s = .next t) : ReflTransGen ExecEffect s t := by
  cases i with
  | br n z p off9 =>
    cases h
    split
    · exact .single (.setPc s _)
    · exact .refl
  | addReg dr sr1 sr2 => cases h; exact ExecEffect.of_writeResult s _ _
  | addImm dr sr1 imm5 => cases h; exact ExecEffect.of_writeResult s _ _
  | ld dr off9 => cases h; exact ExecEffect.of_loadInto s _ _
  | st sr off9 => cases h; exact ExecEffect.of_memWrite s _ _
  | jsr off11 => cases h; exact .tail (.single (.setReg s _ _)) (.setPc _ _)
  | jsrr base =>
    cases h
    split <;> exact .tail (.single (.setReg s _ _)) (.setPc _ _)
  | andReg dr sr1 sr2 => cases h; exact ExecEffect.of_writeResult s _ _
  | andImm dr sr1 imm5 => cases h; exact ExecEffect.of_writeResult s _ _
  | ldr dr base off6 => cases h; exact ExecEffect.of_loadInto s _ _
  | str sr base off6 => cases h; exact ExecEffect.of_memWrite s _ _
  | rti => cases h; exact .single (.report s _)
  | notReg dr sr1 => cases h; exact ExecEffect.of_writeResult s _ _
  | ldi dr off9 => cases h; exact (ExecEffect.of_afterRead s _).trans (ExecEffect.of_loadInto _ _ _)
  | sti sr off9 => cases h; exact (ExecEffect.of_afterRead s _).trans (ExecEffect.of_memWrite _ _ _)
  | jmp base => cases h; exact .single (.setPc s _)
  | res => cases h; exact .single (.report s _)
  | lea dr off9 => cases h; exact ExecEffect.of_writeResult s _ _
  | trap vect => exact ExecEffect.of_execTrap h
  | trapGetc => exact (ExecEffect.of_trapEntry s).trans (ExecEffect.of_routineGetc h)
  | trapOut => cases h; exact (ExecEffect.of_trapEntry s).tail (.outPut _ _)
  | trapPuts => cases h; exact (ExecEffect.of_trapEntry s).trans (ExecEffect.of_stringLoop ExecEffect.of_sendWord _ _ _)
  | trapIn => exact (ExecEffect.of_trapEntry s).trans (ExecEffect.of_routineIn h)
  | trapPutsp =>
    cases h; exact (ExecEffect.of_trapEntry s).trans (ExecEffect.of_stringLoop ExecEffect.of_sendPacked _ _ _)
  | trapHalt => cases h; exact (ExecEffect.of_trapEntry s).trans (ExecEffect.of_routineHalt _)
  | trapInu16 => exact (ExecEffect.of_trapEntry s).trans (ExecEffect.of_routineInu16 h)
  | trapOutu16 => cases h; exact (ExecEffect.of_trapEntry s).trans (ExecEffect.of_outPutAll _ _)

/-! ### The step -/

theorem finishStep_next {o : Outcome State Fault Refusal} {t : State} (h : finishStep o = .next t) :
    ∃ u, o = .next u ∧ t = u.hostTick := by
  cases o with
  | next u => exact ⟨u, rfl, by simpa [finishStep] using h.symm⟩
  | fault f => cases h
  | refused r => cases h

/-- Everything a step can do (R39, R188): nothing when halted, the stop request, or one instruction. -/
theorem step_cases {s t : State} (h : step s = .next t) :
    (s.run = .halted ∧ t = s) ∨
    (s.run = .running ∧ s.stopPending = true ∧ t = s.takeStop) ∨
    (s.run = .running ∧ s.stopPending = false ∧
      ∃ u, exec (decode s.fetch.ir) s.fetch = .next u ∧ t = u.hostTick) := by
  cases hr : s.run with
  | halted =>
    simp only [step, hr, Outcome.next.injEq] at h
    exact .inl ⟨rfl, h.symm⟩
  | running =>
    cases hp : s.stopPending with
    | true =>
      simp only [step, hr, hp, if_true, Outcome.next.injEq] at h
      exact .inr (.inl ⟨rfl, rfl, h.symm⟩)
    | false =>
      simp only [step, hr, hp, Bool.false_eq_true, if_false] at h
      exact .inr (.inr ⟨rfl, rfl, finishStep_next h⟩)

theorem StepEffect.of_exec {s t : State} (h : ReflTransGen ExecEffect s t) : ReflTransGen StepEffect s t := by
  induction h with
  | refl => exact .refl
  | tail _ he ih => exact ih.tail (.exec he)

theorem StepEffect.of_fetch (s : State) : ReflTransGen StepEffect s s.fetch := by
  have h1 : ReflTransGen StepEffect s ((s.afterRead s.pc).setFetched s.pc (s.memRead s.pc).1) :=
    (StepEffect.of_exec (ExecEffect.of_afterRead s s.pc)).tail (.setFetched _ _ _)
  unfold State.fetch State.traceFetch
  simp only
  split
  · exact (h1.tail (.trace _)).tail (.exec (.setPc _ _))
  · exact h1.tail (.exec (.setPc _ _))

theorem StepEffect.of_hostTick (s : State) : ReflTransGen StepEffect s s.hostTick := by
  unfold State.hostTick
  split
  · exact .refl
  · exact .single (.raiseStop s)
  · exact .single (.hostWait s _)

/-- Whatever a step does is a chain of primitive effects. -/
theorem step_effects {s t : State} (h : step s = .next t) : ReflTransGen StepEffect s t := by
  obtain ⟨_, rfl⟩ | ⟨_, _, rfl⟩ | ⟨_, _, u, hu, rfl⟩ := step_cases h
  · exact .refl
  · exact .single (.takeStop s)
  · exact ((StepEffect.of_fetch s).trans (StepEffect.of_exec (exec_effects hu))).trans (StepEffect.of_hostTick u)

/-- A relation that is reflexive, transitive and holds across every primitive effect holds across every step. -/
theorem step_induction {R : State → State → Prop} (hrefl : ∀ s, R s s) (htrans : ∀ {s t u}, R s t → R t u → R s u)
    (heff : ∀ {s t}, StepEffect s t → R s t) {s t : State} (h : step s = .next t) : R s t := by
  have h' := step_effects h
  clear h
  induction h' with
  | refl => exact hrefl s
  | tail _ he ih => exact htrans ih (heff he)

end Sys2Proof.Machine
end

