-- ==== Sys2Proof/Laws/PerInstr.lean ====
section
/-! SUPPORT. One family, for every instruction as syntax: the word the encoder writes has the opcode that the row of
30_encoding.md R86 gives the instruction. -/

namespace Sys2Proof

/-- The opcode column of R86. -/
def Instr.opcode : Instr → BitVec 4
  | .br .. => 0x0#4
  | .addReg .. | .addImm .. => 0x1#4
  | .ld .. => 0x2#4
  | .st .. => 0x3#4
  | .jsr .. | .jsrr .. => 0x4#4
  | .andReg .. | .andImm .. => 0x5#4
  | .ldr .. => 0x6#4
  | .str .. => 0x7#4
  | .rti => 0x8#4
  | .notReg .. => 0x9#4
  | .ldi .. => 0xA#4
  | .sti .. => 0xB#4
  | .jmp .. => 0xC#4
  | .res => 0xD#4
  | .lea .. => 0xE#4
  | .trap .. | .trapGetc | .trapOut | .trapPuts | .trapIn | .trapPutsp | .trapHalt | .trapInu16 | .trapOutu16 => 0xF#4

end Sys2Proof

namespace Sys2Proof.Laws.OpcodeField

open Sys2Proof

/-- The encoder's word carries the instruction's opcode. -/
def Statement (i : Instr) : Prop := fieldOpcode (encode i) = i.opcode

theorem br (n : Bool) (z : Bool) (p : Bool) (off9 : BitVec 9) : Statement (.br n z p off9) := by
  simp (disch := decide) only [Statement, encode, Instr.opcode, fieldOpcode, extract_or, extract_place_same,
    extract_place_above]
  rfl

theorem addReg (dr : RegIdx) (sr1 : RegIdx) (sr2 : RegIdx) : Statement (.addReg dr sr1 sr2) := by
  simp (disch := decide) only [Statement, encode, Instr.opcode, fieldOpcode, extract_or, extract_place_same,
    extract_place_above]
  rfl

theorem addImm (dr : RegIdx) (sr1 : RegIdx) (imm5 : BitVec 5) : Statement (.addImm dr sr1 imm5) := by
  simp (disch := decide) only [Statement, encode, Instr.opcode, fieldOpcode, extract_or, extract_place_same,
    extract_place_above]
  rfl

theorem ld (dr : RegIdx) (off9 : BitVec 9) : Statement (.ld dr off9) := by
  simp (disch := decide) only [Statement, encode, Instr.opcode, fieldOpcode, extract_or, extract_place_same,
    extract_place_above]
  rfl

theorem st (sr : RegIdx) (off9 : BitVec 9) : Statement (.st sr off9) := by
  simp (disch := decide) only [Statement, encode, Instr.opcode, fieldOpcode, extract_or, extract_place_same,
    extract_place_above]
  rfl

theorem jsr (off11 : BitVec 11) : Statement (.jsr off11) := by
  simp (disch := decide) only [Statement, encode, Instr.opcode, fieldOpcode, extract_or, extract_place_same,
    extract_place_above]
  rfl

theorem jsrr (base : RegIdx) : Statement (.jsrr base) := by
  simp (disch := decide) only [Statement, encode, Instr.opcode, fieldOpcode, extract_or, extract_place_same,
    extract_place_above]
  rfl

theorem andReg (dr : RegIdx) (sr1 : RegIdx) (sr2 : RegIdx) : Statement (.andReg dr sr1 sr2) := by
  simp (disch := decide) only [Statement, encode, Instr.opcode, fieldOpcode, extract_or, extract_place_same,
    extract_place_above]
  rfl

theorem andImm (dr : RegIdx) (sr1 : RegIdx) (imm5 : BitVec 5) : Statement (.andImm dr sr1 imm5) := by
  simp (disch := decide) only [Statement, encode, Instr.opcode, fieldOpcode, extract_or, extract_place_same,
    extract_place_above]
  rfl

theorem ldr (dr : RegIdx) (base : RegIdx) (off6 : BitVec 6) : Statement (.ldr dr base off6) := by
  simp (disch := decide) only [Statement, encode, Instr.opcode, fieldOpcode, extract_or, extract_place_same,
    extract_place_above]
  rfl

theorem str (sr : RegIdx) (base : RegIdx) (off6 : BitVec 6) : Statement (.str sr base off6) := by
  simp (disch := decide) only [Statement, encode, Instr.opcode, fieldOpcode, extract_or, extract_place_same,
    extract_place_above]
  rfl

theorem rti : Statement .rti := extract_place_same 12 _ (by decide)

theorem notReg (dr : RegIdx) (sr1 : RegIdx) : Statement (.notReg dr sr1) := by
  simp (disch := decide) only [Statement, encode, Instr.opcode, fieldOpcode, extract_or, extract_place_same,
    extract_place_above]
  rfl

theorem ldi (dr : RegIdx) (off9 : BitVec 9) : Statement (.ldi dr off9) := by
  simp (disch := decide) only [Statement, encode, Instr.opcode, fieldOpcode, extract_or, extract_place_same,
    extract_place_above]
  rfl

theorem sti (sr : RegIdx) (off9 : BitVec 9) : Statement (.sti sr off9) := by
  simp (disch := decide) only [Statement, encode, Instr.opcode, fieldOpcode, extract_or, extract_place_same,
    extract_place_above]
  rfl

theorem jmp (base : RegIdx) : Statement (.jmp base) := by
  simp (disch := decide) only [Statement, encode, Instr.opcode, fieldOpcode, extract_or, extract_place_same,
    extract_place_above]
  rfl

theorem res : Statement .res := extract_place_same 12 _ (by decide)

theorem lea (dr : RegIdx) (off9 : BitVec 9) : Statement (.lea dr off9) := by
  simp (disch := decide) only [Statement, encode, Instr.opcode, fieldOpcode, extract_or, extract_place_same,
    extract_place_above]
  rfl

theorem trap (vect : Byte) : Statement (.trap vect) := by
  simp (disch := decide) only [Statement, encode, Instr.opcode, fieldOpcode, extract_or, extract_place_same,
    extract_place_above]
  rfl

theorem trapGetc : Statement .trapGetc := by
  simp (disch := decide) only [Statement, encode, Instr.opcode, fieldOpcode, extract_or, extract_place_same,
    extract_place_above]
  rfl

theorem trapOut : Statement .trapOut := by
  simp (disch := decide) only [Statement, encode, Instr.opcode, fieldOpcode, extract_or, extract_place_same,
    extract_place_above]
  rfl

theorem trapPuts : Statement .trapPuts := by
  simp (disch := decide) only [Statement, encode, Instr.opcode, fieldOpcode, extract_or, extract_place_same,
    extract_place_above]
  rfl

theorem trapIn : Statement .trapIn := by
  simp (disch := decide) only [Statement, encode, Instr.opcode, fieldOpcode, extract_or, extract_place_same,
    extract_place_above]
  rfl

theorem trapPutsp : Statement .trapPutsp := by
  simp (disch := decide) only [Statement, encode, Instr.opcode, fieldOpcode, extract_or, extract_place_same,
    extract_place_above]
  rfl

theorem trapHalt : Statement .trapHalt := by
  simp (disch := decide) only [Statement, encode, Instr.opcode, fieldOpcode, extract_or, extract_place_same,
    extract_place_above]
  rfl

theorem trapInu16 : Statement .trapInu16 := by
  simp (disch := decide) only [Statement, encode, Instr.opcode, fieldOpcode, extract_or, extract_place_same,
    extract_place_above]
  rfl

theorem trapOutu16 : Statement .trapOutu16 := by
  simp (disch := decide) only [Statement, encode, Instr.opcode, fieldOpcode, extract_or, extract_place_same,
    extract_place_above]
  rfl

end Sys2Proof.Laws.OpcodeField
end

