-- ==== Sys2Proof/Laws/Traps.lean ====
section
/-! SUPPORT. The trap routines: what the string loop and a sequence of takes preserve, and the rows TRAP stands for. -/

namespace Sys2Proof.Machine

open Host (Outcome)

/-- What neither `send` nor a keyboard poll changes, the string loop does not change. -/
theorem stringLoop_preserves {α : Type} (f : State → α) {send : Word → State → State}
    (hsend : ∀ w s, f (send w s) = f s) (hpoll : ∀ s : State, f s.kbsrPoll = f s) (fuel : Nat) (a : Word) (s : State) :
    f (stringLoop send fuel a s) = f s := by
  have hread : ∀ (s : State) (a : Word), f (s.afterRead a) = f s := by
    intro s a
    unfold State.afterRead
    split
    · exact hpoll s
    · rfl
  induction fuel generalizing a s with
  | zero => rfl
  | succ fuel ih =>
    unfold stringLoop
    simp only
    split
    · exact hread s a
    split
    · exact (hsend _ _).trans (hread s a)
    · exact ((ih _ _).trans (hsend _ _)).trans (hread s a)

/-- What one take does not change, a sequence of takes does not change. -/
theorem takeMany_preserves {α : Type} (f : State → α)
    (htake : ∀ (s : State) rest c, f ((s.setInput rest).emit (.inTake c)) = f s) (k : Nat) (s : State) :
    f (s.takeMany k) = f s := by
  induction k generalizing s with
  | zero => rfl
  | succ k ih =>
    cases hi : s.input with
    | nil => simp [State.takeMany, s.takeChar_none_iff.2 hi]
    | cons c rest =>
      simp only [State.takeMany, s.takeChar_cons hi]
      exact (ih _).trans (htake s rest c.char)

/-- TRAP with any vector is a routine's row, or BadTrap outside 0x20-0x27 (R150, R160). -/
theorem execTrap_cases (vect : Byte) (s : State) :
    (vect = 0x20#8 ∧ execTrap vect s = execTrapGetc s) ∨ (vect = 0x21#8 ∧ execTrap vect s = execTrapOut s) ∨
    (vect = 0x22#8 ∧ execTrap vect s = execTrapPuts s) ∨ (vect = 0x23#8 ∧ execTrap vect s = execTrapIn s) ∨
    (vect = 0x24#8 ∧ execTrap vect s = execTrapPutsp s) ∨ (vect = 0x25#8 ∧ execTrap vect s = execTrapHalt s) ∨
    (vect = 0x26#8 ∧ execTrap vect s = execTrapInu16 s) ∨ (vect = 0x27#8 ∧ execTrap vect s = execTrapOutu16 s) ∨
    (¬ (0x20 ≤ vect.toNat ∧ vect.toNat ≤ 0x27) ∧ execTrap vect s = .next (s.report (.badTrap s.ipc vect s.ir))) := by
  by_cases hv : 0x20 ≤ vect.toNat ∧ vect.toNat ≤ 0x27
  · obtain ⟨h1, h2⟩ := hv
    obtain ⟨k, hk, hk1, hk2⟩ : ∃ k, vect = BitVec.ofNat 8 k ∧ 0x20 ≤ k ∧ k ≤ 0x27 := ⟨vect.toNat, by simp, h1, h2⟩
    subst hk
    clear h1 h2
    interval_cases k
    · exact .inl ⟨rfl, rfl⟩
    · exact .inr (.inl ⟨rfl, rfl⟩)
    · exact .inr (.inr (.inl ⟨rfl, rfl⟩))
    · exact .inr (.inr (.inr (.inl ⟨rfl, rfl⟩)))
    · exact .inr (.inr (.inr (.inr (.inl ⟨rfl, rfl⟩))))
    · exact .inr (.inr (.inr (.inr (.inr (.inl ⟨rfl, rfl⟩)))))
    · exact .inr (.inr (.inr (.inr (.inr (.inr (.inl ⟨rfl, rfl⟩))))))
    · exact .inr (.inr (.inr (.inr (.inr (.inr (.inr (.inl ⟨rfl, rfl⟩)))))))
  · have ne : ∀ k, 0x20 ≤ k → k ≤ 0x27 → vect ≠ BitVec.ofNat 8 k := by
      rintro k h1 h2 rfl
      exact hv ⟨by simp; omega, by simp; omega⟩
    refine .inr (.inr (.inr (.inr (.inr (.inr (.inr (.inr ⟨hv, ?_⟩)))))))
    simp [execTrap, ne 0x20 (by decide) (by decide), ne 0x21 (by decide) (by decide), ne 0x22 (by decide) (by decide),
      ne 0x23 (by decide) (by decide), ne 0x24 (by decide) (by decide), ne 0x25 (by decide) (by decide),
      ne 0x26 (by decide) (by decide), ne 0x27 (by decide) (by decide)]

end Sys2Proof.Machine
end

