-- ==== Sys2Proof/Tests/Slice0.lean ====
section
/-! SUPPORT. Tests with expected values from spec/95_test_vectors.md and the encodings of 30_encoding.md, the well-formedness
smoke test, and a witness for the hypotheses of every obligation that has any. -/

namespace Sys2Proof.Tests

open Sys2Proof Sys2Proof.Machine Sys2Proof.Spec

/-! ### The states of the tests -/

/-- Reset with the word w at 0x3000 (95_test_vectors.md, conventions). -/
def start (w : Word) : State := State.reset.setCell 0x3000#16 w

/-- One step, and a check of the state after it; false on a fault or a refusal. -/
def after (s : State) (check : State → Bool) : Bool :=
  match step s with
  | .next t => check t
  | _ => false

/-- The step ends in the fault of the stuck state. -/
def stuck (s : State) : Bool :=
  match step s with
  | .fault (.inputExhausted _) => true
  | _ => false

/-- Characters that have all arrived. -/
def arrived (cs : List Byte) : List InChar := cs.map (fun c => ⟨0, c⟩)

/-- The start of the vectors that put a string at 0x4000 and its address in R0. -/
def withString (w : Word) (a b : Word) : State :=
  (((start w).setReg 0#3 0x4000#16).setCell 0x4000#16 a).setCell 0x4001#16 b

/-! ### Well-formedness: the one check refuses a routine's vector in the generic row -/

theorem test_wf_refuses_routine_vectors :
    (Instr.trap 0x20#8).wf = false ∧ (Instr.trap 0x25#8).wf = false ∧ (Instr.trap 0x27#8).wf = false := by decide

theorem test_wf_accepts : (Instr.trap 0x1F#8).wf = true ∧ (Instr.trap 0x28#8).wf = true ∧ Instr.trapHalt.wf = true := by
  decide

/-! ### Decoding: each word written out field by field from the formats of R88 -/

theorem test_decode_br : decode 0b0000_101_000000011#16 = .br true false true 3#9 := by decide
theorem test_decode_add_reg : decode 0b0001_001_010_0_00_011#16 = .addReg 1#3 2#3 3#3 := by decide
theorem test_decode_add_imm : decode 0b0001_001_010_1_11100#16 = .addImm 1#3 2#3 0b11100#5 := by decide
theorem test_decode_ld : decode 0b0010_010_000010000#16 = .ld 2#3 16#9 := by decide
theorem test_decode_st : decode 0b0011_110_100000001#16 = .st 6#3 0b100000001#9 := by decide
theorem test_decode_jsr : decode 0b0100_1_00000010000#16 = .jsr 16#11 := by decide
theorem test_decode_jsrr : decode 0b0100_0_00_010_000000#16 = .jsrr 2#3 := by decide
theorem test_decode_and_reg : decode 0b0101_010_011_0_00_100#16 = .andReg 2#3 3#3 4#3 := by decide
theorem test_decode_and_imm : decode 0b0101_010_011_1_10000#16 = .andImm 2#3 3#3 0b10000#5 := by decide
theorem test_decode_ldr : decode 0b0110_100_101_111111#16 = .ldr 4#3 5#3 0b111111#6 := by decide
theorem test_decode_str : decode 0b0111_000_110_000010#16 = .str 0#3 6#3 2#6 := by decide
theorem test_decode_rti : decode 0b1000_000000000000#16 = .rti := by decide
theorem test_decode_not : decode 0b1001_001_010_111111#16 = .notReg 1#3 2#3 := by decide
theorem test_decode_ldi : decode 0b1010_011_000000010#16 = .ldi 3#3 2#9 := by decide
theorem test_decode_sti : decode 0b1011_001_000000100#16 = .sti 1#3 4#9 := by decide
theorem test_decode_jmp : decode 0b1100_000_011_000000#16 = .jmp 3#3 := by decide
theorem test_decode_res : decode 0b1101_000100100011#16 = .res := by decide
theorem test_decode_lea : decode 0b1110_001_111111101#16 = .lea 1#3 0b111111101#9 := by decide
theorem test_decode_trap : decode 0b1111_0000_00110000#16 = .trap 0x30#8 := by decide
theorem test_decode_trap_routines :
    decode 0b1111_0000_00100000#16 = .trapGetc ∧ decode 0b1111_0000_00100001#16 = .trapOut ∧
    decode 0b1111_0000_00100010#16 = .trapPuts ∧ decode 0b1111_0000_00100011#16 = .trapIn ∧
    decode 0b1111_0000_00100100#16 = .trapPutsp ∧ decode 0b1111_0000_00100101#16 = .trapHalt ∧
    decode 0b1111_0000_00100110#16 = .trapInu16 ∧ decode 0b1111_0000_00100111#16 = .trapOutu16 := by decide

/-- The host's reading of a table row, and the placing of its word. -/
theorem test_table_word :
    decodeTableWord 16 0x1283 = some (.addReg 1#3 2#3 3#3) ∧ decodeTableWord 32 0x1283 = none ∧
    (State.reset.withFetchWord 16 0x1283).fetch.ir = 0x1283#16 := by decide

/-! ### Operate (L2-1) -/

/-- OP1: signed overflow wraps. -/
theorem test_add_reg_overflow :
    after (((start 0x1283#16).setReg 2#3 0x7FFF#16).setReg 3#3 0x0001#16)
      (fun t => t.reg 1#3 == 0x8000#16 && t.cond == .n && t.pc == 0x3001#16) = true := by decide
/-- OP4: Rd = Rs1 = Rs2. -/
theorem test_add_reg_same :
    after ((start 0x1241#16).setReg 1#3 0x4000#16) (fun t => t.reg 1#3 == 0x8000#16 && t.cond == .n) = true := by decide
/-- OP7: a negative immediate. -/
theorem test_add_imm_negative :
    after ((start 0x1030#16).setReg 0#3 0x0010#16) (fun t => t.reg 0#3 == 0x0000#16 && t.cond == .z) = true := by decide
/-- OP8: the largest immediate. -/
theorem test_add_imm_positive :
    after ((start 0x102F#16).setReg 0#3 0x7FF1#16) (fun t => t.reg 0#3 == 0x8000#16 && t.cond == .n) = true := by decide
/-- OP10. -/
theorem test_and_reg :
    after (((start 0x54C4#16).setReg 3#3 0xF0F0#16).setReg 4#3 0xFF00#16)
      (fun t => t.reg 2#3 == 0xF000#16 && t.cond == .n) = true := by decide
/-- OP11: the immediate is sign-extended. -/
theorem test_and_imm_negative :
    after ((start 0x5030#16).setReg 0#3 0x1234#16) (fun t => t.reg 0#3 == 0x1230#16 && t.cond == .p) = true := by decide
/-- OP16. -/
theorem test_not :
    after ((start 0x903F#16).setReg 0#3 0x8000#16) (fun t => t.reg 0#3 == 0x7FFF#16 && t.cond == .p) = true := by decide
/-- OP17: bits 5:0 are ignored. -/
theorem test_not_ignored_bits :
    after ((start 0x9280#16).setReg 2#3 0x00FF#16) (fun t => t.reg 1#3 == 0xFF00#16 && t.cond == .n) = true := by decide

/-! ### Data movement (L2-2) -/

/-- DM1. -/
theorem test_ld :
    after ((start 0x2410#16).setCell 0x3011#16 0x8000#16) (fun t => t.reg 2#3 == 0x8000#16 && t.cond == .n) = true := by
  decide
/-- DM2: the pc wraps before the offset is added. -/
theorem test_ld_wraps :
    after ((State.reset.setPc 0xFFFF#16).setCell 0xFFFF#16 0x21FF#16)
      (fun t => t.reg 0#3 == 0x21FF#16 && t.pc == 0x0000#16) = true := by decide
/-- DM4. -/
theorem test_ldi :
    after (((start 0xA602#16).setCell 0x3003#16 0x4000#16).setCell 0x4000#16 0x1234#16)
      (fun t => t.reg 3#3 == 0x1234#16 && t.cond == .p) = true := by decide
/-- DM7: the largest negative offset, and the address wraps. -/
theorem test_ldr_wraps :
    after (((start 0x6060#16).setReg 1#3 0x0010#16).setCell 0xFFF0#16 0xBEEF#16)
      (fun t => t.reg 0#3 == 0xBEEF#16 && t.cond == .n) = true := by decide
/-- DM22: a poll that finds a character. -/
theorem test_ldr_polls :
    after ((((start 0x6440#16).setReg 1#3 0xFE00#16).setCell 0xFE00#16 0x1234#16).setInput (arrived [0x71#8]))
      (fun t => t.reg 2#3 == 0x9234#16 && t.cell 0xFE02#16 == 0x0071#16) = true := by decide
/-- DM9. -/
theorem test_lea : after (start 0xE100#16) (fun t => t.reg 0#3 == 0x2F01#16 && t.cond == .p) = true := by decide
/-- DM12. -/
theorem test_st :
    after (((start 0x3001#16).setReg 0#3 0xBEEF#16).setCond .n)
      (fun t => t.cell 0x3002#16 == 0xBEEF#16 && t.cond == .n) = true := by decide
/-- DM13: the last protected address. -/
theorem test_st_protected :
    after (((start 0x31FE#16).setReg 0#3 0x1111#16).setCell 0x2FFF#16 0x2222#16)
      (fun t => t.cell 0x2FFF#16 == 0x2222#16 && t.diagLog == [.protWrite 0x3000#16 0x2FFF#16 0x1111#16]) = true := by
  decide
/-- DM15. -/
theorem test_sti :
    after (((start 0xB204#16).setReg 1#3 0x0042#16).setCell 0x3005#16 0x4000#16)
      (fun t => t.cell 0x4000#16 == 0x0042#16) = true := by decide
/-- DM16: DDR sends the low byte and keeps its cell. -/
theorem test_str_ddr :
    after (((start 0x7040#16).setReg 0#3 0x1241#16).setReg 1#3 0xFE06#16)
      (fun t => t.outputLog == [0x41#8] && t.cell 0xFE06#16 == 0x0000#16) = true := by decide
/-- DM18: MCR with bit 15 = 0 halts. -/
theorem test_str_mcr :
    after (((start 0x7040#16).setReg 0#3 0x7FFF#16).setReg 1#3 0xFFFE#16)
      (fun t => t.run == .halted && t.cause == .halt) = true := by decide

/-! ### Control (L2-3) -/

/-- BR with mask 110 and cond = P is not taken. -/
theorem test_br_not_taken : after ((start 0x0C02#16).setCond .p) (fun t => t.pc == 0x3001#16) = true := by decide
/-- BR with mask 110 and cond = N is taken. -/
theorem test_br_taken : after ((start 0x0C02#16).setCond .n) (fun t => t.pc == 0x3003#16) = true := by decide
/-- CT7: ignored bits. -/
theorem test_jmp : after ((start 0xCEFF#16).setReg 3#3 0x4000#16) (fun t => t.pc == 0x4000#16) = true := by decide
/-- CT10. -/
theorem test_jsr : after (start 0x4C00#16) (fun t => t.pc == 0x2C01#16 && t.reg 7#3 == 0x3001#16) = true := by decide
/-- CT13: JSRR R7 with the default of JSRR_LINK_FIRST. -/
theorem test_jsrr_r7 :
    after ((start 0x41C0#16).setReg 7#3 0x5000#16) (fun t => t.pc == 0x3001#16 && t.reg 7#3 == 0x3001#16) = true := by
  decide
/-- CT14. -/
theorem test_jsrr :
    after ((start 0x46BF#16).setReg 2#3 0x5000#16) (fun t => t.pc == 0x5000#16 && t.reg 7#3 == 0x3001#16) = true := by
  decide

/-! ### TRAP, RTI, RES (L2-4) -/

/-- TR1, the character arriving late. -/
theorem test_getc :
    after ((start 0xF020#16).setInput [⟨3, 0x41#8⟩]) (fun t => t.reg 0#3 == 0x0041#16 && t.cond == .p) = true := by decide
/-- TR3. -/
theorem test_getc_stuck : stuck (start 0xF020#16) = true := by decide
/-- TR4. -/
theorem test_out :
    after ((start 0xF021#16).setReg 0#3 0x0141#16) (fun t => t.outputLog == [0x41#8] && t.reg 0#3 == 0x0141#16) = true := by
  decide
/-- TR5. -/
theorem test_puts :
    after (withString 0xF022#16 0x0048#16 0x0069#16) (fun t => t.outputLog == [0x48#8, 0x69#8]) = true := by decide
/-- TR7: the string stops at the top of memory. -/
theorem test_puts_top :
    after ((((start 0xF022#16).setReg 0#3 0xFFFF#16).setCell 0xFFFF#16 0x0041#16).setCell 0x0000#16 0x0042#16)
      (fun t => t.outputLog == [0x41#8]) = true := by decide
/-- TR9: the echo. -/
theorem test_in :
    after ((start 0xF023#16).setInput (arrived [0x7A#8])) (fun t => t.outputLog == [0x7A#8] && t.reg 0#3 == 0x007A#16) =
      true := by decide
/-- TR10. -/
theorem test_putsp :
    after (withString 0xF024#16 0x6948#16 0x0021#16) (fun t => t.outputLog == [0x48#8, 0x69#8, 0x21#8]) = true := by decide
/-- TR11: a low byte of zero is output. -/
theorem test_putsp_low_zero :
    after (withString 0xF024#16 0x4100#16 0x0000#16) (fun t => t.outputLog == [0x00#8, 0x41#8]) = true := by decide
/-- TR13. -/
theorem test_halt :
    after (start 0xFF25#16) (fun t => t.run == .halted && t.cause == .halt && t.pc == 0x3001#16) = true := by decide
/-- TR16. -/
theorem test_inu16 :
    after ((start 0xF026#16).setInput (arrived [0x20#8, 0x20#8, 0x34#8, 0x32#8, 0x78#8, 0x79#8]))
      (fun t => t.reg 0#3 == 0x002A#16 && t.input == arrived [0x79#8]) = true := by decide
/-- TR18. -/
theorem test_inu16_stuck : stuck ((start 0xF026#16).setInput (arrived [0x31#8, 0x32#8])) = true := by decide
/-- TR21. -/
theorem test_outu16 :
    after ((start 0xF027#16).setReg 0#3 0x8000#16) (fun t => t.outputLog == [0x33#8, 0x32#8, 0x37#8, 0x36#8, 0x38#8]) =
      true := by decide
/-- TR22. -/
theorem test_bad_trap :
    after (start 0xF030#16) (fun t => t.diagLog == [.badTrap 0x3000#16 0x30#8 0xF030#16] && t.pc == 0x3001#16) = true := by
  decide
/-- TR26. -/
theorem test_rti :
    after (start 0x8000#16) (fun t => t.diagLog == [.badOpcode 0x3000#16 0x8#4 0x8000#16] && t.pc == 0x3001#16) = true := by
  decide
/-- TR27. -/
theorem test_res :
    after (start 0xD123#16) (fun t => t.diagLog == [.badOpcode 0x3000#16 0xD#4 0xD123#16] && t.pc == 0x3001#16) = true := by
  decide

/-! ### The step (L2-5) -/

/-- ST1: a stop request before the first step. -/
theorem test_stop_request :
    after ((start 0x1021#16).setStop true none)
      (fun t => t.run == .halted && t.cause == .interrupted && t.pc == 0x3000#16 && t.reg 0#3 == 0x0000#16) = true := by
  decide
/-- ST3: the pc wraps. -/
theorem test_pc_wraps :
    after ((State.reset.setPc 0xFFFF#16).setCell 0xFFFF#16 0x1021#16)
      (fun t => t.pc == 0x0000#16 && t.reg 0#3 == 0x0001#16) = true := by decide

/-! ### Witnesses: a concrete state and operands that meet the hypotheses of each obligation together -/

/-- LoadBeginsTheRun, at the top of memory: the first word is placed, the second is not, and both neighbours are outside. -/
theorem witness_LoadBeginsTheRun :
    ([0x1021#16, 0xF025#16] : List Word) ≠ [] ∧ 0 < [0x1021#16, 0xF025#16].length ∧ (0xFFFF#16 : Word).toNat + 0 < 0x10000 ∧
    ¬ (0xFFFF#16 : Word).toNat + 1 < 0x10000 ∧ (0xFFFE#16 : Word).toNat < (0xFFFF#16 : Word).toNat ∧
    (0x3000#16 : Word).toNat + 1 ≤ (0x3001#16 : Word).toNat ∧ (([] : Memory) = []) := by decide

theorem witness_DecodeEncodeRoundTrip :
    (Instr.trap 0x1F#8).wf = true ∧ (Instr.trap 0x28#8).wf = true ∧ (Instr.br true false true 0x100#9).wf = true := by decide

/-- UnusedBitsAreIgnored: each clause, with the two words different. -/
theorem witness_UnusedBitsAreIgnored :
    ((0x1281#16 : Word) &&& 0xF020#16 = 0x1000#16 ∧ (0x1299#16 : Word) &&& 0xFFE7#16 = (0x1281#16 : Word) &&& 0xFFE7#16) ∧
    ((0x54C4#16 : Word) &&& 0xF020#16 = 0x5000#16 ∧ (0x54DC#16 : Word) &&& 0xFFE7#16 = (0x54C4#16 : Word) &&& 0xFFE7#16) ∧
    ((0x92BF#16 : Word) &&& 0xF000#16 = 0x9000#16 ∧ (0x9280#16 : Word) &&& 0xFFC0#16 = (0x92BF#16 : Word) &&& 0xFFC0#16) ∧
    ((0x4080#16 : Word) &&& 0xF800#16 = 0x4000#16 ∧ (0x46BF#16 : Word) &&& 0xF9C0#16 = (0x4080#16 : Word) &&& 0xF9C0#16) ∧
    ((0xC0C0#16 : Word) &&& 0xF000#16 = 0xC000#16 ∧ (0xCEFF#16 : Word) &&& 0xF1C0#16 = (0xC0C0#16 : Word) &&& 0xF1C0#16) ∧
    ((0x8000#16 : Word) &&& 0xF000#16 = 0x8000#16 ∧ (0x8FFF#16 : Word) &&& 0xF000#16 = (0x8000#16 : Word) &&& 0xF000#16) ∧
    ((0xD000#16 : Word) &&& 0xF000#16 = 0xD000#16 ∧ (0xD123#16 : Word) &&& 0xF000#16 = (0xD000#16 : Word) &&& 0xF000#16) ∧
    ((0xF025#16 : Word) &&& 0xF000#16 = 0xF000#16 ∧ (0xFF25#16 : Word) &&& 0xF0FF#16 = (0xF025#16 : Word) &&& 0xF0FF#16) := by
  decide

/-- The flag rule's three clauses at their boundaries (L1-2). -/
theorem witness_SetccFollowsTheFlagRule :
    (State.reset.setcc 0x0000#16).cond = .z ∧ (State.reset.setcc 0x8000#16).cond = .n ∧
    (State.reset.setcc 0xFFFF#16).cond = .n ∧ (State.reset.setcc 0x0001#16).cond = .p ∧
    (State.reset.setcc 0x7FFF#16).cond = .p := by decide

/-! The rows of the results: a word that matches the row and has the fields. -/

theorem witness_AddRegResult :
    (0x1299#16 : Word) &&& 0xF020#16 = 0x1000#16 ∧ bits 0x1299#16 9 3 = 1#3 ∧ bits 0x1299#16 6 3 = 2#3 ∧
    bits 0x1299#16 0 3 = 1#3 := by decide
theorem witness_AddImmResult :
    (0x147C#16 : Word) &&& 0xF020#16 = 0x1020#16 ∧ bits 0x147C#16 9 3 = 2#3 ∧ bits 0x147C#16 6 3 = 1#3 ∧
    bits 0x147C#16 0 5 = 0b11100#5 ∧ (State.reset.setReg 3#3 0xFFFC#16).reg 3#3 = disp 0b11100#5 := by decide
theorem witness_AndRegResult :
    (0x54C4#16 : Word) &&& 0xF020#16 = 0x5000#16 ∧ bits 0x54C4#16 9 3 = 2#3 ∧ bits 0x54C4#16 6 3 = 3#3 ∧
    bits 0x54C4#16 0 3 = 4#3 := by decide
theorem witness_AndImmResult :
    (0x5030#16 : Word) &&& 0xF020#16 = 0x5020#16 ∧ bits 0x5030#16 9 3 = 0#3 ∧ bits 0x5030#16 6 3 = 0#3 ∧
    bits 0x5030#16 0 5 = 0b10000#5 := by decide
theorem witness_NotResult :
    (0x9280#16 : Word) &&& 0xF000#16 = 0x9000#16 ∧ bits 0x9280#16 9 3 = 1#3 ∧ bits 0x9280#16 6 3 = 2#3 := by decide
theorem witness_LdResult :
    (0x21FF#16 : Word) &&& 0xF000#16 = 0x2000#16 ∧ bits 0x21FF#16 9 3 = 0#3 ∧ bits 0x21FF#16 0 9 = 0x1FF#9 := by decide
theorem witness_LdiResult :
    (0xA602#16 : Word) &&& 0xF000#16 = 0xA000#16 ∧ bits 0xA602#16 9 3 = 3#3 ∧ bits 0xA602#16 0 9 = 2#9 := by decide
theorem witness_LdrResult :
    (0x697F#16 : Word) &&& 0xF000#16 = 0x6000#16 ∧ bits 0x697F#16 9 3 = 4#3 ∧ bits 0x697F#16 6 3 = 5#3 ∧
    bits 0x697F#16 0 6 = 0x3F#6 := by decide
theorem witness_LeaResult :
    (0xE3FD#16 : Word) &&& 0xF000#16 = 0xE000#16 ∧ bits 0xE3FD#16 9 3 = 1#3 ∧ bits 0xE3FD#16 0 9 = 0x1FD#9 := by decide
theorem witness_StResult :
    (0x31FE#16 : Word) &&& 0xF000#16 = 0x3000#16 ∧ bits 0x31FE#16 9 3 = 0#3 ∧ bits 0x31FE#16 0 9 = 0x1FE#9 := by decide
theorem witness_StiResult :
    (0xB204#16 : Word) &&& 0xF000#16 = 0xB000#16 ∧ bits 0xB204#16 9 3 = 1#3 ∧ bits 0xB204#16 0 9 = 4#9 := by decide
theorem witness_StrResult :
    (0x7180#16 : Word) &&& 0xF000#16 = 0x7000#16 ∧ bits 0x7180#16 9 3 = 0#3 ∧ bits 0x7180#16 6 3 = 6#3 ∧
    bits 0x7180#16 0 6 = 0#6 := by decide
theorem witness_BrResult :
    (0x0602#16 : Word) &&& 0xF000#16 = 0x0000#16 ∧ (0x0602#16 : Word).getLsbD 11 = false ∧
    (0x0602#16 : Word).getLsbD 10 = true ∧ (0x0602#16 : Word).getLsbD 9 = true ∧ bits 0x0602#16 0 9 = 2#9 := by decide
theorem witness_JmpResult : (0xCEFF#16 : Word) &&& 0xF000#16 = 0xC000#16 ∧ bits 0xCEFF#16 6 3 = 3#3 := by decide
theorem witness_JsrResult : (0x4C00#16 : Word) &&& 0xF800#16 = 0x4800#16 ∧ bits 0x4C00#16 0 11 = 0x400#11 := by decide
theorem witness_JsrrResult : (0x41C0#16 : Word) &&& 0xF800#16 = 0x4000#16 ∧ bits 0x41C0#16 6 3 = 7#3 := by decide

/-- The TRAP rows, with bits 11:8 set, as in OutResult, PutsResult, PutspResult, HaltResult and Outu16Result. -/
theorem witness_trap_rows :
    (0xFF20#16 : Word) &&& 0xF0FF#16 = 0xF020#16 ∧ (0xFF21#16 : Word) &&& 0xF0FF#16 = 0xF021#16 ∧
    (0xFF22#16 : Word) &&& 0xF0FF#16 = 0xF022#16 ∧ (0xFF23#16 : Word) &&& 0xF0FF#16 = 0xF023#16 ∧
    (0xFF24#16 : Word) &&& 0xF0FF#16 = 0xF024#16 ∧ (0xFF25#16 : Word) &&& 0xF0FF#16 = 0xF025#16 ∧
    (0xFF26#16 : Word) &&& 0xF0FF#16 = 0xF026#16 ∧ (0xFF27#16 : Word) &&& 0xF0FF#16 = 0xF027#16 := by decide

theorem witness_ReservedOpcodesReport :
    (0x8FFF#16 : Word) &&& 0xF000#16 = 0x8000#16 ∧ (0xD123#16 : Word) &&& 0xF000#16 = 0xD000#16 := by decide

theorem witness_ImmediateModeAgreesWithRegisterMode :
    ((State.reset.setReg 1#3 0x0003#16).setReg 3#3 0xFFFC#16).reg 3#3 = disp 0b11100#5 := by decide

/-- MemReadPollsOnlyKbsr: ready, not yet ready, exhausted, and two plain addresses. -/
theorem witness_MemReadPollsOnlyKbsr :
    (State.reset.setInput [⟨0, 0x61#8⟩]).inReady = true ∧ (State.reset.setInput [⟨1, 0x61#8⟩]).inReady = false ∧
    State.reset.inReady = false ∧ (0xFE02#16 : Word) ≠ 0xFE00#16 ∧ (0xFDFF#16 : Word) ≠ 0xFE00#16 := by decide

/-- MemWriteFollowsTheAddressMap: the halting write, and the boundaries of the other clauses of the map. -/
theorem witness_MemWriteFollowsTheAddressMap :
    (0x7FFF#16 : Word).toNat < 0x8000 ∧ (State.reset.memWrite 0xFFFE#16 0x7FFF#16).run = .halted ∧
    (State.reset.memWrite 0xFFFE#16 0x8000#16).run = .running ∧
    (State.reset.memWrite 0x2FFF#16 0x0001#16).cell 0x2FFF#16 = 0x0000#16 ∧
    (State.reset.memWrite 0x3000#16 0x0001#16).cell 0x3000#16 = 0x0001#16 ∧
    (State.reset.memWrite 0xFE06#16 0x0141#16).outputLog = [0x41#8] ∧
    (State.reset.memWrite 0xFFFF#16 0x0001#16).cell 0xFFFF#16 = 0x0001#16 := by decide

theorem witness_StoreIsSeenByTheNextFetch :
    0x2FFF < (0x3000#16 : Word).toNat ∧ (0x3000#16 : Word) ≠ 0xFE00#16 ∧ (0x3000#16 : Word) ≠ 0xFE06#16 ∧
    (0x3000#16 : Word) ≠ 0xFFFE#16 ∧ State.reset.run = .running ∧ State.reset.stopPending = false := by decide

theorem witness_GetcResult : (State.reset.setInput [⟨3, 0x41#8⟩, ⟨0, 0x00#8⟩]).input = ⟨3, 0x41#8⟩ :: [⟨0, 0x00#8⟩] := rfl

theorem witness_InResult : (State.reset.setInput [⟨0, 0x7A#8⟩]).input = ⟨0, 0x7A#8⟩ :: [] := rfl

/-- Inu16Result: blanks and digits (TR16), and no digit at all (TR17). -/
theorem witness_Inu16Result :
    ((arrived [0x20#8, 0x34#8, 0x32#8, 0x78#8]).map InChar.char = [0x20#8] ++ [0x34#8, 0x32#8] ++ [0x78#8] ∧
      (∀ c ∈ [0x20#8], Blank c) ∧ (∀ c ∈ [0x34#8, 0x32#8], Digit c) ∧ ¬ Digit 0x78#8 ∧
      (([0x34#8, 0x32#8] : List Byte) = [] → ¬ Blank 0x78#8)) ∧
    ((arrived [0x78#8]).map InChar.char = [] ++ [] ++ [0x78#8] ∧ ¬ Digit 0x78#8 ∧ ¬ Blank 0x78#8) := by
  simp [arrived, Blank, Digit]

/-- BadTrapResult: the vectors next to the valid ones and the extremes (TR24), and their rows. -/
theorem witness_BadTrapResult :
    (0x1F#8 : Byte).toNat < 0x20 ∧ 0x27 < (0x28#8 : Byte).toNat ∧ (0x00#8 : Byte).toNat < 0x20 ∧ 0x27 < (0xFF#8 : Byte).toNat ∧
    (0xF528#16 : Word) &&& 0xF000#16 = 0xF000#16 ∧ bits 0xF528#16 0 8 = 0x28#8 := by decide

/-- ExhaustedInputHoldsForEver: no input; and blanks then digits only (TR18). -/
theorem witness_ExhaustedInputHoldsForEver :
    State.reset.input = [] ∧
    ((State.reset.setInput (arrived [0x20#8, 0x31#8, 0x32#8])).input.map InChar.char = [0x20#8] ++ [0x31#8, 0x32#8] ∧
      (∀ c ∈ [0x20#8], Blank c) ∧ (∀ c ∈ [0x31#8, 0x32#8], Digit c)) := by
  simp [arrived, Blank, Digit, State.reset, State.setInput]

/-- PutsPrintsAPlainString: a string whose terminator is the last word of memory. -/
theorem witness_PutsPrintsAPlainString :
    let s := (State.reset.setReg 0#3 0xFFFE#16).setCell 0xFFFE#16 0x0048#16
    (∀ w ∈ [0x0048#16], w ≠ (0x0000#16 : Word)) ∧ (s.reg 0#3).toNat + 1 ≤ 0xFFFF ∧
    (∀ k ≤ 1, s.reg 0#3 + BitVec.ofNat 16 k ≠ 0xFE00#16) ∧
    (∀ (k : Nat) (h : k < 1), s.cell (s.reg 0#3 + BitVec.ofNat 16 k) = [0x0048#16][k]) ∧
    s.cell (s.reg 0#3 + BitVec.ofNat 16 1) = 0x0000#16 := by
  intro s
  have hr : s.reg 0#3 = 0xFFFE#16 := by decide
  refine ⟨by simp, by simp [hr], ?_, ?_, by decide⟩
  · intro k h
    obtain rfl | rfl : k = 0 ∨ k = 1 := by omega
    all_goals simp [hr]
  · intro k h
    obtain rfl : k = 0 := by omega
    rfl

/-- StepRunsTheDecodedInstruction: the AND of L1-7. -/
theorem witness_StepRunsTheDecodedInstruction :
    (start 0x5020#16).run = .running ∧ (start 0x5020#16).stopPending = false ∧
    (start 0x5020#16).memRead (start 0x5020#16).pc = (0x5020#16, start 0x5020#16) ∧
    decode 0x5020#16 = .andImm 0#3 0#3 0#5 := by decide

theorem witness_StopRequestIsTaken :
    (State.reset.setStop true none).run = .running ∧ (State.reset.setStop true none).stopPending = true := by decide

theorem witness_HaltedIsTerminal : State.reset.halt.run = .halted := rfl

/-- ScheduledStopIsTakenAtTheNextBoundary: a step that goes on (ST9) and one that halts (ST8). -/
theorem witness_ScheduledStopIsTakenAtTheNextBoundary :
    ((start 0x0FFF#16).setStop false (some 0)).run = .running ∧
    ((start 0x0FFF#16).setStop false (some 0)).stopPending = false ∧
    ((start 0x0FFF#16).setStop false (some 0)).stopIn = some 0 ∧
    after ((start 0x0FFF#16).setStop false (some 0)) (fun t => t.run == .running && t.pc == 0x3000#16) = true ∧
    after ((start 0xF025#16).setStop false (some 0)) (fun t => t.run == .halted && t.cause == .halt) = true := by decide

/-- RegistersWrittenOnlyAsListed: a register that ADD does not name, R7 of a TRAP without the link, R6 of JSR. -/
theorem witness_RegistersWrittenOnlyAsListed :
    (∃ t, exec (.addReg 1#3 2#3 3#3) State.reset = .next t) ∧ ¬ Results (.addReg 1#3 2#3 3#3) 2#3 ∧
    ¬ ((2#3 : RegIdx) = 7#3 ∧ linksR7 (.addReg 1#3 2#3 3#3) Params.default) ∧
    (∃ t, exec .trapOut State.reset = .next t) ∧ ¬ Results .trapOut 7#3 ∧ ¬ linksR7 .trapOut Params.default ∧
    (∃ t, exec (.jsr 0#11) State.reset = .next t) ∧ ¬ Results (.jsr 0#11) 6#3 ∧ (6#3 : RegIdx) ≠ 7#3 := by
  refine ⟨⟨_, rfl⟩, ?_, fun h => h.2, ⟨_, rfl⟩, fun h => h, fun h => (by cases h), ⟨_, rfl⟩, fun h => h, by decide⟩
  show ¬ (2#3 : RegIdx) = 1#3
  decide

/-- FlagsWrittenOnlyAsListed: an instruction with a result register and one without. -/
theorem witness_FlagsWrittenOnlyAsListed :
    (∃ t, exec (.lea 0#3 0#9) State.reset = .next t) ∧ Results (.lea 0#3 0#9) 0#3 ∧
    (∃ t, exec (.st 0#3 0#9) State.reset = .next t) ∧ ∀ r, ¬ Results (.st 0#3 0#9) r := by
  refine ⟨⟨_, rfl⟩, rfl, ⟨_, rfl⟩, fun r h => h⟩

/-- OnlyBranchReadsTheFlags: both clauses. -/
theorem witness_OnlyBranchReadsTheFlags :
    (∀ n z p off9, Instr.notReg 0#3 1#3 ≠ .br n z p off9) ∧ (∃ t, exec (.notReg 0#3 1#3) State.reset = .next t) ∧
    (∃ r, Results (.notReg 0#3 1#3) r) ∧ (∀ n z p off9, Instr.jmp 1#3 ≠ .br n z p off9) ∧
    (∃ t, exec (.jmp 1#3) State.reset = .next t) ∧ ∀ r, ¬ Results (.jmp 1#3) r := by
  refine ⟨by simp, ⟨_, rfl⟩, ⟨0#3, rfl⟩, by simp, ⟨_, rfl⟩, fun r h => h⟩

theorem witness_PcWrittenOnlyByControlTransfers :
    (∀ n z p off9, Instr.trapHalt ≠ .br n z p off9) ∧ (∀ b, Instr.trapHalt ≠ .jmp b) ∧ (∀ o, Instr.trapHalt ≠ .jsr o) ∧
    (∀ b, Instr.trapHalt ≠ .jsrr b) ∧ ∃ t, exec .trapHalt State.reset = .next t := by
  refine ⟨by simp, by simp, by simp, by simp, ⟨_, rfl⟩⟩

/-- RunStateWrittenOnlyAsListed: an instruction that leaves the run state, and the store to MCR that halts (DM18). -/
theorem witness_RunStateWrittenOnlyAsListed :
    (∃ t, exec .rti State.reset = .next t ∧ t.run = .running) ∧
    (∃ t, exec (.str 0#3 1#3 0#6) (State.reset.setReg 1#3 0xFFFE#16) = .next t ∧ t.run = .halted) ∧
    storeOf (.str 0#3 1#3 0#6) (State.reset.setReg 1#3 0xFFFE#16) = some (0xFFFE#16, 0x0000#16) := by
  exact ⟨⟨_, rfl, by decide⟩, ⟨_, rfl, by decide⟩, by decide⟩

/-- MemoryWrittenOnlyAsListed: a store to 0x3002 (DM12) and the cell beside it. -/
theorem witness_MemoryWrittenOnlyAsListed :
    (∃ t, exec (.st 0#3 1#9) (State.reset.setPc 0x3001#16) = .next t) ∧ (0x3003#16 : Word) ≠ 0xFE00#16 ∧
    (0x3003#16 : Word) ≠ 0xFE02#16 ∧ ∀ v, storeOf (.st 0#3 1#9) (State.reset.setPc 0x3001#16) ≠ some (0x3003#16, v) := by
  refine ⟨⟨_, rfl⟩, by decide, by decide, fun v h => ?_⟩
  have h' : some (0x3002#16 : Word) = some 0x3003#16 := congrArg (Option.map Prod.fst) h
  exact absurd h' (by decide)

/-- AtMostOneDiagnostic: none, and one (TR22). -/
theorem witness_AtMostOneDiagnostic :
    (∃ t, exec .trapOut State.reset = .next t) ∧
    ∃ t, exec (.trap 0x30#8) State.reset = .next t ∧ t.diagLog = [.badTrap 0x0000#16 0x30#8 0x0000#16] :=
  ⟨⟨_, rfl⟩, ⟨_, rfl, by decide⟩⟩

theorem witness_StepKeepsTheInvariant : State.reset.Inv ∧ ∃ t, step State.reset = .next t :=
  ⟨⟨by decide, by decide⟩, ⟨_, rfl⟩⟩

theorem witness_InvariantHoldsWhenTheRunBegins :
    Memory.wf [(0x1000, 0xABCD#16)] = true ∧
    ∃ t, State.load Params.default [(0x1000, 0xABCD#16)] 0x3000#16 [0xF025#16] 0x3000#16 [] false none = .ok t :=
  ⟨by decide, ⟨_, rfl⟩⟩

/-- ProtectedCellsNeverChange: both ends of the protected region, DDR and MCR. -/
theorem witness_ProtectedCellsNeverChange :
    Protected 0x0000#16 ∧ Protected 0x2FFF#16 ∧ Protected 0xFE06#16 ∧ Protected 0xFFFE#16 ∧ ¬ Protected 0x3000#16 ∧
    ∃ t, step State.reset = .next t := by
  refine ⟨?_, ?_, ?_, ?_, ?_, ⟨_, rfl⟩⟩ <;> simp [Protected]

theorem witness_InputIsNeverLostOrReordered :
    after ((start 0xF020#16).setInput (arrived [0x41#8, 0x42#8])) (fun t => t.input == arrived [0x42#8]) = true := by decide

theorem witness_ParametersAndStopLatchPersist :
    (State.reset.setStop true none).stopPending = true ∧ after (State.reset.setStop true none) (fun t => t.stopPending) = true := by
  decide

/-- TraceHasNoEffectOnExecution: a step with a trace record (ST7), and one that is stuck (TR3). -/
theorem witness_TraceHasNoEffectOnExecution :
    after { start 0x1025#16 with params := { Params.default with traceEnabled := true } }
      (fun t => t.traceLog == [.trace 0x3000#16 0x1025#16 (Vector.replicate 8 0x0000#16) .z] && t.reg 0#3 == 0x0005#16) =
      true ∧ stuck (start 0xF020#16) = true := by decide

end Sys2Proof.Tests
end

section
/-! PROOFS. Sign and zero extension of the fields of an instruction (00_scope.md R8), from one rule for every width. -/

namespace Sys2Proof.Machine

/-- R8 at every pair of widths: the sign bit fills the places above the field. -/
theorem signExtend_eq_ite_msb {w : Nat} (v : Nat) (f : BitVec w) :
    f.signExtend v = if f.msb then f.setWidth v ||| (BitVec.allOnes v <<< w) else f.setWidth v := by
  cases hm : f.msb with
  | false => simpa using BitVec.signExtend_eq_setWidth_of_msb_false hm
  | true =>
    ext i hi
    by_cases hf : i < w
    · simp [BitVec.getElem_signExtend, hf]
    · simp [BitVec.getElem_signExtend, hf, hm]

/-- R8 for a word, with the sign bit of a field of n + 1 bits named as its bit n. -/
theorem signExtend_eq_ite_getLsbD {n : Nat} (f : BitVec (n + 1)) :
    f.signExtend 16 =
      if f.getLsbD n then f.setWidth 16 ||| (0xFFFF#16 <<< (n + 1)) else f.setWidth 16 := by
  have hmsb : f.msb = f.getLsbD n := BitVec.msb_eq_getLsbD_last f
  rw [← hmsb]
  exact signExtend_eq_ite_msb 16 f

/-- R8: a character keeps its number, because a byte fits in a word. -/
theorem toNat_zextByte (c : Byte) : (zextByte c).toNat = c.toNat :=
  BitVec.toNat_setWidth_of_le (by decide)

/-- Settles O9: each of the four widths is an instance of the rule for every width. -/
theorem extensionRules : Obligations.ExtensionRules := by
  unfold Obligations.ExtensionRules sext5 sext6 sext9 sext11
  exact ⟨signExtend_eq_ite_getLsbD, signExtend_eq_ite_getLsbD, signExtend_eq_ite_getLsbD,
    signExtend_eq_ite_getLsbD, toNat_zextByte⟩

end Sys2Proof.Machine
end

section
/-! PROOFS. The flag-update rule (10_state.md R27): the flag of a value, and the frame of a write to the flags. -/

namespace Sys2Proof.Machine

open Sys2Proof.Spec Sys2Proof.Spec.Part

/-- Bit 15 of a word is 1 exactly when its value is in the upper half. -/
theorem getLsbD_15_iff (v : Word) : v.getLsbD 15 = true ↔ 0x8000 ≤ v.toNat := by
  simpa using congrArg (· = true) (BitVec.getLsbD_last v)

theorem flagOf_of_toNat_eq_zero {v : Word} (h : v.toNat = 0) : flagOf v = .z :=
  if_pos (BitVec.eq_of_toNat_eq h)

theorem flagOf_of_ne_zero {v : Word} (h : v.toNat ≠ 0) : flagOf v = if v.getLsbD 15 then .n else .p :=
  if_neg fun hv => h (congrArg BitVec.toNat hv)

/-- The model's flag of a value is the one that R27 names: the three clauses in its order. -/
theorem flagRule_flagOf (v : Word) : FlagRule v (flagOf v) := by
  refine ⟨flagOf_of_toNat_eq_zero, fun hneg => ?_, fun hpos hlow => ?_⟩
  · rw [flagOf_of_ne_zero (by omega), if_pos ((getLsbD_15_iff v).mpr hneg)]
  · have hbit : ¬ v.getLsbD 15 = true := fun hb => absurd ((getLsbD_15_iff v).mp hb) (by omega)
    rw [flagOf_of_ne_zero (by omega), if_neg hbit]

/-- The frame of a write to the flags. -/
theorem sameBut_setCond (s : State) (c : Cond) : SameBut [flags] s (s.setCond c) := by
  simp [SameBut]

/-- Settles O10: setcc is a write to the flags of the value's flag. -/
theorem setccFollowsTheFlagRule : Obligations.SetccFollowsTheFlagRule := by
  unfold Obligations.SetccFollowsTheFlagRule
  intro s v
  rw [State.setcc_eq, State.setCond_cond]
  exact ⟨flagRule_flagOf v, sameBut_setCond s (flagOf v)⟩

end Sys2Proof.Machine
end

section
/-! PROOFS. The frames of the named updates (`SameBut`): a chain of updates changes at most what its parts change. -/

namespace Sys2Proof.Machine

open Sys2Proof.Spec Sys2Proof.Spec.Part

theorem sameBut_refl (s : State) : SameBut [] s s := by
  simp [SameBut]

/-- A longer list of parts allows more. -/
theorem sameBut_mono {ps qs : List Part} {s t : State} (h : SameBut ps s t) (hsub : ps ⊆ qs) : SameBut qs s t := by
  obtain ⟨hreg, hpc, hflags, hcell, hrun, hinput, hhistory, hrest⟩ := h
  exact ⟨fun r hr => hreg r fun hm => hr (hsub hm), fun hq => hpc fun hm => hq (hsub hm),
    fun hq => hflags fun hm => hq (hsub hm), fun a ha => hcell a fun hm => ha (hsub hm),
    fun hq => hrun fun hm => hq (hsub hm), fun hq => hinput fun hm => hq (hsub hm),
    fun hq => hhistory fun hm => hq (hsub hm), hrest⟩

/-- Two changes inside the same parts, one after the other. -/
theorem sameBut_trans {ps : List Part} {s t u : State} (hst : SameBut ps s t) (htu : SameBut ps t u) :
    SameBut ps s u := by
  obtain ⟨hreg, hpc, hflags, hcell, hrun, hinput, hhistory, hipc, hir, hpending, hstopIn, hparams⟩ := hst
  obtain ⟨hreg', hpc', hflags', hcell', hrun', hinput', hhistory', hipc', hir', hpending', hstopIn', hparams'⟩ := htu
  exact ⟨fun r hr => (hreg' r hr).trans (hreg r hr), fun h => (hpc' h).trans (hpc h),
    fun h => (hflags' h).trans (hflags h), fun a ha => (hcell' a ha).trans (hcell a ha),
    fun h => ⟨(hrun' h).1.trans (hrun h).1, (hrun' h).2.trans (hrun h).2⟩,
    fun h => (hinput' h).trans (hinput h), fun h => (hhistory' h).trans (hhistory h),
    hipc'.trans hipc, hir'.trans hir, hpending'.trans hpending, hstopIn'.trans hstopIn, hparams'.trans hparams⟩

theorem sameBut_emit (s : State) (e : Event) : SameBut [history] s (s.emit e) := by
  simp [SameBut]

theorem sameBut_setInput (s : State) (cs : List InChar) : SameBut [input] s (s.setInput cs) := by
  simp [SameBut]

theorem sameBut_stopWith (s : State) (c : StopCause) : SameBut [runState] s (s.stopWith c) := by
  simp [SameBut]

theorem sameBut_setCell (s : State) (a v : Word) : SameBut [cell a] s (s.setCell a v) := by
  simp +contextual [SameBut, State.cell_setCell]

end Sys2Proof.Machine
end

section
/-! PROOFS. MemRead (20_memory.md R55, R56): the keyboard poll as a chain of named updates, one for a character that has
arrived and one for none. -/

namespace Sys2Proof.Machine

open Sys2Proof.Spec Sys2Proof.Spec.Part

theorem State.inReady_iff (s : State) : s.inReady = true ↔ ∃ c rest, s.input = ⟨0, c⟩ :: rest := by
  unfold State.inReady
  cases s.input with
  | nil => simp
  | cons c rest => cases c; simp

theorem kbsrReadyValue_eq (p : Params) (old : Word) :
    kbsrReadyValue p old = if p.kbsrLowBits = .preserve then old ||| 0x8000#16 else 0x8000#16 := by
  unfold kbsrReadyValue
  cases p.kbsrLowBits <;> rfl

theorem kbsrIdleValue_eq (p : Params) (old : Word) :
    kbsrIdleValue p old = if p.kbsrLowBits = .preserve then old &&& 0x7FFF#16 else 0x0000#16 := by
  unfold kbsrIdleValue
  cases p.kbsrLowBits <;> rfl

theorem State.memRead_kbsr (s : State) : s.memRead 0xFE00#16 = (s.kbsrPoll.cell Config.kbsr, s.kbsrPoll) := rfl

/-- A poll that finds a character takes it, then writes KBDR, then KBSR; the write of KBDR leaves KBSR's low bits. -/
theorem State.kbsrPoll_ready {s : State} {c : Byte} {rest : List InChar} (h : s.input = ⟨0, c⟩ :: rest) :
    s.kbsrPoll = (((s.setInput rest).emit (.inTake c)).setCell Config.kbdr (zextByte c)).setCell Config.kbsr
      (kbsrReadyValue s.params (s.cell Config.kbsr)) := by
  have hne : Config.kbsr ≠ Config.kbdr := by decide
  simp [State.kbsrPoll, h, State.cell_setCell_other _ hne]

/-- A poll that finds no character writes KBSR; of the input only the host's waiting times can change. -/
theorem State.kbsrPoll_idle {s : State} (h : s.inReady = false) :
    ∃ cs : List InChar, cs.map InChar.char = s.input.map InChar.char ∧
      s.kbsrPoll = (s.setInput cs).setCell Config.kbsr (kbsrIdleValue s.params (s.cell Config.kbsr)) := by
  unfold State.kbsrPoll
  split
  case h_1 hin => exact ⟨s.input, rfl, rfl⟩
  case h_2 c rest hin => simp [State.inReady, hin] at h
  case h_3 k c rest hin => exact ⟨⟨k, c⟩ :: rest, by simp [hin], rfl⟩

theorem sameBut_kbsrPoll_ready {s : State} {c : Byte} {rest : List InChar} (h : s.input = ⟨0, c⟩ :: rest) :
    SameBut [cell Config.kbsr, cell Config.kbdr, input, history] s s.kbsrPoll := by
  rw [State.kbsrPoll_ready h]
  have htake := sameBut_mono (sameBut_setInput s rest)
    (qs := [cell Config.kbsr, cell Config.kbdr, input, history]) (by simp)
  have hevent := sameBut_trans htake (sameBut_mono (sameBut_emit _ (.inTake c)) (by simp))
  have hdata := sameBut_trans hevent (sameBut_mono (sameBut_setCell _ Config.kbdr (zextByte c)) (by simp))
  exact sameBut_trans hdata (sameBut_mono (sameBut_setCell _ Config.kbsr _) (by simp))

theorem sameBut_kbsrPoll_idle {s : State} (h : s.inReady = false) :
    SameBut [cell Config.kbsr, input] s s.kbsrPoll := by
  obtain ⟨cs, -, hpoll⟩ := State.kbsrPoll_idle h
  rw [hpoll]
  exact sameBut_trans (sameBut_mono (sameBut_setInput s cs) (by simp))
    (sameBut_mono (sameBut_setCell _ Config.kbsr _) (by simp))

/-- Settles O17: a read of KBSR is a poll, in the two cases of R56. -/
theorem memReadPollsOnlyKbsr : Obligations.MemReadPollsOnlyKbsr := by
  unfold Obligations.MemReadPollsOnlyKbsr
  intro s
  rw [State.memRead_kbsr, ← kbsrReadyValue_eq, ← kbsrIdleValue_eq]
  refine ⟨fun a ha => s.memRead_plain ha, rfl, fun hready => ?_, fun hidle => ?_⟩
  · obtain ⟨c, rest, hin⟩ := s.inReady_iff.mp hready
    have hframe := sameBut_kbsrPoll_ready hin
    have hdata : s.kbsrPoll.cell Config.kbdr = zextByte c := by
      rw [State.kbsrPoll_ready hin, State.cell_setCell_other _ (by decide), State.cell_setCell_same]
    refine ⟨⟨0, c⟩, rest, hin, ?_, ?_, (congrArg BitVec.toNat hdata).trans (toNat_zextByte c), ?_, hframe⟩
    all_goals simp [State.kbsrPoll_ready hin, Config.kbsr]
  · have hframe := sameBut_kbsrPoll_idle hidle
    obtain ⟨cs, hchars, hpoll⟩ := State.kbsrPoll_idle hidle
    refine ⟨?_, ?_, hframe⟩
    · simpa [hpoll] using hchars
    · simp [hpoll, Config.kbsr]

end Sys2Proof.Machine
end

section
/-! PROOFS. MemWrite (20_memory.md R59 to R63): the address map of the model is the one of the statements. -/

namespace Sys2Proof.Machine

open Sys2Proof.Spec Sys2Proof.Spec.Part

theorem bits_eq_extractLsb' (w : Word) (lo n : Nat) : bits w lo n = w.extractLsb' lo n :=
  BitVec.setWidth_ushiftRight_eq_extractLsb

theorem step_of_halted {s : State} (h : s.run = .halted) : step s = .next s := by
  simp [step, h]

theorem getLsbD_15_eq_false {v : Word} (h : v.toNat < 0x8000) : v.getLsbD 15 = false :=
  Bool.eq_false_iff.mpr fun hb => absurd ((getLsbD_15_iff v).mp hb) (by omega)

theorem State.memWrite_ddr (s : State) (v : Word) : s.memWrite Config.ddr v = s.emit (.outPut (lowByte v)) :=
  if_pos rfl

theorem State.memWrite_mcr (s : State) (v : Word) :
    s.memWrite Config.mcr v = if v.getLsbD 15 = false then s.stopWith .halt else s :=
  (if_neg (by decide)).trans (if_pos rfl)

theorem State.memWrite_mcr_halts (s : State) {v : Word} (hv : v.toNat < 0x8000) :
    s.memWrite Config.mcr v = s.stopWith .halt :=
  (s.memWrite_mcr v).trans (if_pos (getLsbD_15_eq_false hv))

theorem State.memWrite_mcr_keeps (s : State) {v : Word} (hv : 0x8000 ≤ v.toNat) : s.memWrite Config.mcr v = s :=
  (s.memWrite_mcr v).trans (if_neg (by simp [(getLsbD_15_iff v).mpr hv]))

theorem State.memWrite_protected (s : State) {a : Word} (v : Word) (hddr : a ≠ Config.ddr) (hmcr : a ≠ Config.mcr)
    (hprot : a ≤ Config.protectedTop) : s.memWrite a v = s.emit (.diag (.protWrite s.ipc a v)) :=
  (if_neg hddr).trans ((if_neg hmcr).trans (if_pos hprot))

theorem State.memWrite_stores (s : State) {a : Word} (v : Word) (hddr : a ≠ Config.ddr) (hmcr : a ≠ Config.mcr)
    (hprot : ¬ a ≤ Config.protectedTop) : s.memWrite a v = s.setCell a v :=
  (if_neg hddr).trans ((if_neg hmcr).trans (if_neg hprot))

/-- The cases of the address map, in the order of R59. -/
theorem stored_memWrite (s : State) (a v : Word) : Stored s a v (s.memWrite a v) := by
  unfold Stored
  split_ifs with hddr hmcr hv hprot
  case pos => -- DDR
    obtain rfl : a = Config.ddr := hddr
    rw [s.memWrite_ddr, bits_eq_extractLsb']
    exact ⟨sameBut_emit s _, rfl⟩
  case pos => -- MCR, bit 15 set
    obtain rfl : a = Config.mcr := hmcr
    rw [s.memWrite_mcr_keeps hv]
    exact sameBut_refl s
  case neg => -- MCR, bit 15 clear
    obtain rfl : a = Config.mcr := hmcr
    rw [s.memWrite_mcr_halts (by omega)]
    exact ⟨sameBut_stopWith s .halt, rfl, rfl⟩
  case pos => -- the protected region
    rw [s.memWrite_protected v hddr hmcr hprot]
    exact ⟨sameBut_emit s _, rfl⟩
  case neg => -- every other address
    rw [s.memWrite_stores v hddr hmcr hprot]
    exact ⟨sameBut_setCell s a v, s.cell_setCell_same a v⟩

/-- Settles O18: the address map, and a machine that a write to MCR halts is halted for good (R196). -/
theorem memWriteFollowsTheAddressMap : Obligations.MemWriteFollowsTheAddressMap := by
  unfold Obligations.MemWriteFollowsTheAddressMap
  intro s a v
  refine ⟨stored_memWrite s a v, fun ha hv => ?_⟩
  obtain rfl : a = Config.mcr := ha
  have hhalt : (s.memWrite Config.mcr v).run = .halted := congrArg State.run (s.memWrite_mcr_halts hv)
  exact step_of_halted hhalt

end Sys2Proof.Machine
end

section
/-! PROOFS. The rows of ADD, AND and NOT (30_encoding.md R87, R90): a field of the statements is the decoder's field, and the
mask of a row fixes the opcode and the mode bit. -/

namespace Sys2Proof.Machine

open Sys2Proof.Spec

theorem bits_eq_fieldDr (w : Word) : bits w 9 3 = fieldDr w := bits_eq_extractLsb' w 9 3

theorem bits_eq_fieldSr1 (w : Word) : bits w 6 3 = fieldSr1 w := bits_eq_extractLsb' w 6 3

theorem bits_eq_fieldSr2 (w : Word) : bits w 0 3 = fieldSr2 w := bits_eq_extractLsb' w 0 3

theorem bits_eq_fieldImm5 (w : Word) : bits w 0 5 = fieldImm5 w := bits_eq_extractLsb' w 0 5

theorem row_addReg (dr sr1 sr2 : RegIdx) :
    Row 0xF020#16 0x1000#16 (fun w => bits w 9 3 = dr ∧ bits w 6 3 = sr1 ∧ bits w 0 3 = sr2) (.addReg dr sr1 sr2) := by
  rintro w hw ⟨rfl, rfl, rfl⟩
  have hop : fieldOpcode w = 0x1#4 := fieldOpcode_of_mask (by decide) hw
  have hmode : w.getLsbD 5 = false := getLsbD_of_mask (by decide) hw
  simp only [decode_add hop, hmode, Bool.false_eq_true, if_false, bits_eq_fieldDr, bits_eq_fieldSr1, bits_eq_fieldSr2]

theorem row_addImm (dr sr1 : RegIdx) (imm5 : BitVec 5) :
    Row 0xF020#16 0x1020#16 (fun w => bits w 9 3 = dr ∧ bits w 6 3 = sr1 ∧ bits w 0 5 = imm5) (.addImm dr sr1 imm5) := by
  rintro w hw ⟨rfl, rfl, rfl⟩
  have hop : fieldOpcode w = 0x1#4 := fieldOpcode_of_mask (by decide) hw
  have hmode : w.getLsbD 5 = true := getLsbD_of_mask (by decide) hw
  simp only [decode_add hop, hmode, if_true, bits_eq_fieldDr, bits_eq_fieldSr1, bits_eq_fieldImm5]

theorem row_andReg (dr sr1 sr2 : RegIdx) :
    Row 0xF020#16 0x5000#16 (fun w => bits w 9 3 = dr ∧ bits w 6 3 = sr1 ∧ bits w 0 3 = sr2) (.andReg dr sr1 sr2) := by
  rintro w hw ⟨rfl, rfl, rfl⟩
  have hop : fieldOpcode w = 0x5#4 := fieldOpcode_of_mask (by decide) hw
  have hmode : w.getLsbD 5 = false := getLsbD_of_mask (by decide) hw
  simp only [decode_and hop, hmode, Bool.false_eq_true, if_false, bits_eq_fieldDr, bits_eq_fieldSr1, bits_eq_fieldSr2]

theorem row_andImm (dr sr1 : RegIdx) (imm5 : BitVec 5) :
    Row 0xF020#16 0x5020#16 (fun w => bits w 9 3 = dr ∧ bits w 6 3 = sr1 ∧ bits w 0 5 = imm5) (.andImm dr sr1 imm5) := by
  rintro w hw ⟨rfl, rfl, rfl⟩
  have hop : fieldOpcode w = 0x5#4 := fieldOpcode_of_mask (by decide) hw
  have hmode : w.getLsbD 5 = true := getLsbD_of_mask (by decide) hw
  simp only [decode_and hop, hmode, if_true, bits_eq_fieldDr, bits_eq_fieldSr1, bits_eq_fieldImm5]

theorem row_notReg (dr sr1 : RegIdx) :
    Row 0xF000#16 0x9000#16 (fun w => bits w 9 3 = dr ∧ bits w 6 3 = sr1) (.notReg dr sr1) := by
  rintro w hw ⟨rfl, rfl⟩
  have hop : fieldOpcode w = 0x9#4 := fieldOpcode_of_mask (by decide) hw
  rw [decode_not hop, bits_eq_fieldDr, bits_eq_fieldSr1]

end Sys2Proof.Machine
end

section
/-! PROOFS. Writing a result register (10_state.md R28): the flags follow the register, and the frame is these two. -/

namespace Sys2Proof.Machine

open Sys2Proof.Spec Sys2Proof.Spec.Part

theorem sameBut_setReg (s : State) (r : RegIdx) (v : Word) : SameBut [reg r] s (s.setReg r v) := by
  simp +contextual [SameBut, State.reg_setReg]

/-- A register write, then the write to the flags. -/
theorem sameBut_writeResult (s : State) (r : RegIdx) (v : Word) : SameBut [reg r, flags] s (s.writeResult r v) :=
  sameBut_trans (sameBut_mono (sameBut_setReg s r v) (by simp))
    (sameBut_mono (sameBut_setCond (s.setReg r v) (flagOf v)) (by simp))

theorem flagRule_writeResult (s : State) (r : RegIdx) (v : Word) :
    FlagRule ((s.writeResult r v).reg r) (s.writeResult r v).cond := by
  rw [State.writeResult_reg_same, State.writeResult_cond]
  exact flagRule_flagOf v

end Sys2Proof.Machine
end

section
/-! PROOFS. ADD, AND and NOT (40_operate.md R111 to R115): each writes one result, whose value the rule states in numbers
or bit by bit. -/

namespace Sys2Proof.Machine

open Sys2Proof.Spec Sys2Proof.Spec.Part

theorem exec_addReg (dr sr1 sr2 : RegIdx) (s : State) :
    exec (.addReg dr sr1 sr2) s = .next (s.writeResult dr (s.reg sr1 + s.reg sr2)) := rfl

theorem exec_addImm (dr sr1 : RegIdx) (imm5 : BitVec 5) (s : State) :
    exec (.addImm dr sr1 imm5) s = .next (s.writeResult dr (s.reg sr1 + disp imm5)) := rfl

theorem exec_andReg (dr sr1 sr2 : RegIdx) (s : State) :
    exec (.andReg dr sr1 sr2) s = .next (s.writeResult dr (s.reg sr1 &&& s.reg sr2)) := rfl

theorem exec_andImm (dr sr1 : RegIdx) (imm5 : BitVec 5) (s : State) :
    exec (.andImm dr sr1 imm5) s = .next (s.writeResult dr (s.reg sr1 &&& disp imm5)) := rfl

theorem exec_notReg (dr sr1 : RegIdx) (s : State) :
    exec (.notReg dr sr1) s = .next (s.writeResult dr (~~~ s.reg sr1)) := rfl

/-- R8: the word of a field's signed value is the field sign-extended. -/
theorem disp_eq_signExtend {n : Nat} (f : BitVec n) : disp f = f.signExtend 16 := rfl

/-- R9: adding a displacement adds its signed value modulo 2^16. -/
theorem toNat_add_disp {n : Nat} (v : Word) (f : BitVec n) :
    ((v + disp f).toNat : Int) = (v.toNat + f.toInt) % 0x10000 := by
  have hdisp : ((disp f).toNat : Int) = f.toInt % 0x10000 := by
    rw [disp, BitVec.toNat_ofInt]
    omega
  rw [BitVec.toNat_add]
  omega

/-- The bits of a displacement inside its field. -/
theorem getLsbD_disp_of_lt {n k : Nat} (f : BitVec n) (hk : k < n) (hk16 : k < 16) :
    (disp f).getLsbD k = f.getLsbD k := by
  rw [disp_eq_signExtend, BitVec.getLsbD_signExtend, if_pos hk, decide_eq_true hk16, Bool.true_and]

/-- The bits of a displacement above its field are the field's sign bit. -/
theorem getLsbD_disp_of_le {n k : Nat} (f : BitVec (n + 1)) (hk : n < k) (hk16 : k < 16) :
    (disp f).getLsbD k = f.getLsbD n := by
  rw [disp_eq_signExtend, BitVec.getLsbD_signExtend, if_neg (by omega), decide_eq_true hk16, Bool.true_and,
    BitVec.msb_eq_getLsbD_last, Nat.add_sub_cancel]

/-- R114: bits 4:0 of the AND with an extended immediate. -/
theorem getLsbD_and_disp_low (v : Word) (imm5 : BitVec 5) (k : Nat) (hk : k < 5) :
    (v &&& disp imm5).getLsbD k = (v.getLsbD k && imm5.getLsbD k) := by
  rw [BitVec.getLsbD_and, getLsbD_disp_of_lt imm5 hk (by omega)]

/-- R114: the bits above 4 of the AND with an extended immediate; past bit 15 there is none on either side. -/
theorem getLsbD_and_disp_high (v : Word) (imm5 : BitVec 5) (k : Nat) (hk : 5 ≤ k) :
    (v &&& disp imm5).getLsbD k = (v.getLsbD k && imm5.getLsbD 4) := by
  rw [BitVec.getLsbD_and]
  by_cases hk16 : k < 16
  · rw [getLsbD_disp_of_le imm5 hk hk16]
  · rw [BitVec.getLsbD_of_ge v k (by omega), Bool.false_and, Bool.false_and]

/-- Settles O11: the result is the sum of the two words. -/
theorem addRegResult : Obligations.AddRegResult := by
  unfold Obligations.AddRegResult
  intro dr sr1 sr2 s
  refine ⟨row_addReg dr sr1 sr2, _, exec_addReg dr sr1 sr2 s, ?_, flagRule_writeResult s dr _,
    sameBut_writeResult s dr _⟩
  rw [State.writeResult_reg_same]
  exact BitVec.toNat_add _ _

/-- Settles O12: the result is the sum of the register and the displacement, as a second register would give it. -/
theorem addImmResult : Obligations.AddImmResult := by
  unfold Obligations.AddImmResult
  intro dr sr1 imm5 s
  refine ⟨row_addImm dr sr1 imm5, _, exec_addImm dr sr1 imm5 s, ?_, flagRule_writeResult s dr _,
    sameBut_writeResult s dr _, fun sr2 hsr2 => ?_⟩
  · rw [State.writeResult_reg_same]
    exact toNat_add_disp _ imm5
  · rw [exec_addReg, hsr2]

/-- Settles O13: the result is the AND of the two words. -/
theorem andRegResult : Obligations.AndRegResult := by
  unfold Obligations.AndRegResult
  intro dr sr1 sr2 s
  refine ⟨row_andReg dr sr1 sr2, _, exec_andReg dr sr1 sr2 s, fun k => ?_, flagRule_writeResult s dr _,
    sameBut_writeResult s dr _⟩
  rw [State.writeResult_reg_same, BitVec.getLsbD_and]

/-- Settles O14: the result is the AND of the register and the displacement, inside the field and above it. -/
theorem andImmResult : Obligations.AndImmResult := by
  unfold Obligations.AndImmResult
  intro dr sr1 imm5 s
  refine ⟨row_andImm dr sr1 imm5, _, exec_andImm dr sr1 imm5 s, ?_, ?_, flagRule_writeResult s dr _,
    sameBut_writeResult s dr _⟩
  · rw [State.writeResult_reg_same]
    exact getLsbD_and_disp_low _ imm5
  · rw [State.writeResult_reg_same]
    exact getLsbD_and_disp_high _ imm5

/-- Settles O15: the result is the complement of the word. -/
theorem notResult : Obligations.NotResult := by
  unfold Obligations.NotResult
  intro dr sr1 s
  refine ⟨row_notReg dr sr1, _, exec_notReg dr sr1 s, ?_, flagRule_writeResult s dr _, sameBut_writeResult s dr _⟩
  rw [State.writeResult_reg_same]
  exact BitVec.toNat_not

end Sys2Proof.Machine
end

section
/-! PROOFS. The rows of the data movement instructions (30_encoding.md R87, R88): the mask of each covers the opcode only, so each
follows from the rule for its format. -/

namespace Sys2Proof.Machine

open Sys2Proof.Spec

theorem bits_eq_fieldOff9 (w : Word) : bits w 0 9 = fieldOff9 w := bits_eq_extractLsb' w 0 9

theorem bits_eq_fieldOff6 (w : Word) : bits w 0 6 = fieldOff6 w := bits_eq_extractLsb' w 0 6

/-- The format of one register and PCoffset9, for every opcode that decodes by it to `mk`. -/
theorem row_reg_off9 {pattern : Word} {mk : RegIdx → BitVec 9 → Instr}
    (hdecode : ∀ w, fieldOpcode w = fieldOpcode pattern → decode w = mk (fieldDr w) (fieldOff9 w))
    (r : RegIdx) (off9 : BitVec 9) :
    Row 0xF000#16 pattern (fun w => bits w 9 3 = r ∧ bits w 0 9 = off9) (mk r off9) := by
  rintro w hw ⟨rfl, rfl⟩
  rw [hdecode w (fieldOpcode_of_mask (by decide) hw), bits_eq_fieldDr, bits_eq_fieldOff9]

/-- The format of one register, BaseR and offset6, for every opcode that decodes by it to `mk`. -/
theorem row_reg_base_off6 {pattern : Word} {mk : RegIdx → RegIdx → BitVec 6 → Instr}
    (hdecode : ∀ w, fieldOpcode w = fieldOpcode pattern → decode w = mk (fieldDr w) (fieldSr1 w) (fieldOff6 w))
    (r base : RegIdx) (off6 : BitVec 6) :
    Row 0xF000#16 pattern (fun w => bits w 9 3 = r ∧ bits w 6 3 = base ∧ bits w 0 6 = off6) (mk r base off6) := by
  rintro w hw ⟨rfl, rfl, rfl⟩
  rw [hdecode w (fieldOpcode_of_mask (by decide) hw), bits_eq_fieldDr, bits_eq_fieldSr1, bits_eq_fieldOff6]

theorem row_ld (dr : RegIdx) (off9 : BitVec 9) :
    Row 0xF000#16 0x2000#16 (fun w => bits w 9 3 = dr ∧ bits w 0 9 = off9) (.ld dr off9) :=
  row_reg_off9 (fun _ => decode_ld) dr off9

theorem row_ldi (dr : RegIdx) (off9 : BitVec 9) :
    Row 0xF000#16 0xA000#16 (fun w => bits w 9 3 = dr ∧ bits w 0 9 = off9) (.ldi dr off9) :=
  row_reg_off9 (fun _ => decode_ldi) dr off9

theorem row_ldr (dr base : RegIdx) (off6 : BitVec 6) :
    Row 0xF000#16 0x6000#16 (fun w => bits w 9 3 = dr ∧ bits w 6 3 = base ∧ bits w 0 6 = off6) (.ldr dr base off6) :=
  row_reg_base_off6 (fun _ => decode_ldr) dr base off6

theorem row_lea (dr : RegIdx) (off9 : BitVec 9) :
    Row 0xF000#16 0xE000#16 (fun w => bits w 9 3 = dr ∧ bits w 0 9 = off9) (.lea dr off9) :=
  row_reg_off9 (fun _ => decode_lea) dr off9

theorem row_st (sr : RegIdx) (off9 : BitVec 9) :
    Row 0xF000#16 0x3000#16 (fun w => bits w 9 3 = sr ∧ bits w 0 9 = off9) (.st sr off9) :=
  row_reg_off9 (fun _ => decode_st) sr off9

theorem row_sti (sr : RegIdx) (off9 : BitVec 9) :
    Row 0xF000#16 0xB000#16 (fun w => bits w 9 3 = sr ∧ bits w 0 9 = off9) (.sti sr off9) :=
  row_reg_off9 (fun _ => decode_sti) sr off9

theorem row_str (sr base : RegIdx) (off6 : BitVec 6) :
    Row 0xF000#16 0x7000#16 (fun w => bits w 9 3 = sr ∧ bits w 6 3 = base ∧ bits w 0 6 = off6) (.str sr base off6) :=
  row_reg_base_off6 (fun _ => decode_str) sr base off6

end Sys2Proof.Machine
end

section
/-! PROOFS. LD, LDI, LDR, LEA, ST, STI and STR (41_data_movement.md R121 to R127): the loads and LEA write one result, as ADD
does; the stores are one MemWrite, which `stored_memWrite` describes. -/

namespace Sys2Proof.Machine

open Sys2Proof.Spec Sys2Proof.Spec.Part

theorem exec_ld (dr : RegIdx) (off9 : BitVec 9) (s : State) :
    exec (.ld dr off9) s = .next (s.loadInto dr (s.pc + disp off9)) := rfl

theorem exec_ldi (dr : RegIdx) (off9 : BitVec 9) (s : State) :
    exec (.ldi dr off9) s =
      .next ((s.memRead (s.pc + disp off9)).2.loadInto dr (s.memRead (s.pc + disp off9)).1) := rfl

theorem exec_ldr (dr base : RegIdx) (off6 : BitVec 6) (s : State) :
    exec (.ldr dr base off6) s = .next (s.loadInto dr (s.reg base + disp off6)) := rfl

theorem exec_lea (dr : RegIdx) (off9 : BitVec 9) (s : State) :
    exec (.lea dr off9) s = .next (s.writeResult dr (s.pc + disp off9)) := rfl

theorem exec_st (sr : RegIdx) (off9 : BitVec 9) (s : State) :
    exec (.st sr off9) s = .next (s.memWrite (s.pc + disp off9) (s.reg sr)) := rfl

/-- The pointer read changes no register, so STI writes what SR held before it. -/
theorem exec_sti (sr : RegIdx) (off9 : BitVec 9) (s : State) :
    exec (.sti sr off9) s =
      .next ((s.memRead (s.pc + disp off9)).2.memWrite (s.memRead (s.pc + disp off9)).1 (s.reg sr)) := by
  rw [← s.afterRead_reg (s.pc + disp off9) sr]
  rfl

theorem exec_str (sr base : RegIdx) (off6 : BitVec 6) (s : State) :
    exec (.str sr base off6) s = .next (s.memWrite (s.reg base + disp off6) (s.reg sr)) := rfl

/-- A load writes the word read as its result, in the state that the read leaves. -/
theorem loadInto_result (s : State) (dr : RegIdx) (ea : Word) :
    (s.loadInto dr ea).reg dr = (s.memRead ea).1 ∧ FlagRule ((s.loadInto dr ea).reg dr) (s.loadInto dr ea).cond ∧
      SameBut [reg dr, flags] (s.memRead ea).2 (s.loadInto dr ea) :=
  ⟨State.writeResult_reg_same _ dr _, flagRule_writeResult _ dr _, sameBut_writeResult _ dr _⟩

/-- Settles O20: a load from pc plus the offset. -/
theorem ldResult : Obligations.LdResult := by
  unfold Obligations.LdResult
  intro dr off9 s
  exact ⟨row_ld dr off9, _, exec_ld dr off9 s, loadInto_result s dr _⟩

/-- Settles O21: a load from the pointer, in the state after the pointer's read. -/
theorem ldiResult : Obligations.LdiResult := by
  unfold Obligations.LdiResult
  intro dr off9 s
  exact ⟨row_ldi dr off9, _, exec_ldi dr off9 s, loadInto_result _ dr _⟩

/-- Settles O22: a load from the base plus the offset. -/
theorem ldrResult : Obligations.LdrResult := by
  unfold Obligations.LdrResult
  intro dr base off6 s
  exact ⟨row_ldr dr base off6, _, exec_ldr dr base off6 s, loadInto_result s dr _⟩

/-- Settles O23: the result is the address itself, the sum modulo 2^16 (R9). -/
theorem leaResult : Obligations.LeaResult := by
  unfold Obligations.LeaResult
  intro dr off9 s
  refine ⟨row_lea dr off9, _, exec_lea dr off9 s, ?_, flagRule_writeResult s dr _, sameBut_writeResult s dr _⟩
  rw [State.writeResult_reg_same]
  exact toNat_add_disp s.pc off9

/-- Settles O24: one MemWrite at pc plus the offset. -/
theorem stResult : Obligations.StResult := by
  unfold Obligations.StResult
  intro sr off9 s
  exact ⟨row_st sr off9, _, exec_st sr off9 s, stored_memWrite s _ _⟩

/-- Settles O25: one MemWrite at the pointer, in the state after the pointer's read. -/
theorem stiResult : Obligations.StiResult := by
  unfold Obligations.StiResult
  intro sr off9 s
  exact ⟨row_sti sr off9, _, exec_sti sr off9 s, stored_memWrite _ _ _⟩

/-- Settles O26: one MemWrite at the base plus the offset. -/
theorem strResult : Obligations.StrResult := by
  unfold Obligations.StrResult
  intro sr base off6 s
  exact ⟨row_str sr base off6, _, exec_str sr base off6 s, stored_memWrite s _ _⟩

end Sys2Proof.Machine
end

section
/-! PROOFS. The rows of BR, JMP, JSR and JSRR (30_encoding.md R87, R91): the opcode fixes BR and JMP, and bit 11 tells JSR from
JSRR. The bits that a row ignores (R92) are under neither its mask nor its fields. -/

namespace Sys2Proof.Machine

open Sys2Proof.Spec

theorem bits_eq_fieldOff11 (w : Word) : bits w 0 11 = fieldOff11 w := bits_eq_extractLsb' w 0 11

theorem row_br (n z p : Bool) (off9 : BitVec 9) :
    Row 0xF000#16 0x0000#16 (fun w => w.getLsbD 11 = n ∧ w.getLsbD 10 = z ∧ w.getLsbD 9 = p ∧ bits w 0 9 = off9)
      (.br n z p off9) := by
  rintro w hw ⟨rfl, rfl, rfl, rfl⟩
  have hop : fieldOpcode w = 0x0#4 := fieldOpcode_of_mask (by decide) hw
  rw [decode_br hop, bits_eq_fieldOff9]

theorem row_jmp (base : RegIdx) : Row 0xF000#16 0xC000#16 (fun w => bits w 6 3 = base) (.jmp base) := by
  rintro w hw rfl
  have hop : fieldOpcode w = 0xC#4 := fieldOpcode_of_mask (by decide) hw
  rw [decode_jmp hop, bits_eq_fieldSr1]

theorem row_jsr (off11 : BitVec 11) : Row 0xF800#16 0x4800#16 (fun w => bits w 0 11 = off11) (.jsr off11) := by
  rintro w hw rfl
  have hop : fieldOpcode w = 0x4#4 := fieldOpcode_of_mask (by decide) hw
  have hform : w.getLsbD 11 = true := getLsbD_of_mask (by decide) hw
  rw [decode_jsr hop, if_pos hform, bits_eq_fieldOff11]

theorem row_jsrr (base : RegIdx) : Row 0xF800#16 0x4000#16 (fun w => bits w 6 3 = base) (.jsrr base) := by
  rintro w hw rfl
  have hop : fieldOpcode w = 0x4#4 := fieldOpcode_of_mask (by decide) hw
  have hform : w.getLsbD 11 = false := getLsbD_of_mask (by decide) hw
  rw [decode_jsr hop, if_neg (Bool.eq_false_iff.mp hform), bits_eq_fieldSr1]

end Sys2Proof.Machine
end

section
/-! PROOFS. BR, JMP, JSR and JSRR (42_control.md R141 to R144): each is one write of the pc, after the link for the calls. A
branch that is not taken writes the pc that stands there, so it has the same form. -/

namespace Sys2Proof.Machine

open Sys2Proof.Spec Sys2Proof.Spec.Part

/-! ### The branch test -/

@[simp] theorem branchTaken_n (n z p : Bool) : branchTaken n z p .n = n := by
  revert n z p
  decide

@[simp] theorem branchTaken_z (n z p : Bool) : branchTaken n z p .z = z := by
  revert n z p
  decide

@[simp] theorem branchTaken_p (n z p : Bool) : branchTaken n z p .p = p := by
  revert n z p
  decide

/-- R26, R141: cond holds one flag, so the AND of the two masks asks for that flag's mask bit. -/
theorem branchTaken_iff (n z p : Bool) (c : Cond) :
    branchTaken n z p c = true ↔ (n = true ∧ c = .n) ∨ (z = true ∧ c = .z) ∨ (p = true ∧ c = .p) := by
  cases c with
  | n => simp
  | z => simp
  | p => simp

/-! ### The frames -/

theorem sameBut_setPc (s : State) (target : Word) : SameBut [pc] s (s.setPc target) := by
  simp [SameBut]

/-- A call links and jumps: R7 holds the old pc, the pc the target, and nothing else changes. -/
theorem link_setPc_result (s : State) (target : Word) :
    (s.link.setPc target).reg 7#3 = s.pc ∧ (s.link.setPc target).pc = target ∧
      SameBut [reg 7#3, pc] s (s.link.setPc target) := by
  refine ⟨s.reg_setReg_same 7#3 s.pc, rfl, ?_⟩
  exact sameBut_trans (sameBut_mono (sameBut_setReg s 7#3 s.pc) (by simp))
    (sameBut_mono (sameBut_setPc s.link target) (by simp))

/-! ### The meaning of each instruction -/

/-- A branch that is not taken leaves the state that writing its own pc gives. -/
theorem exec_br_branchTaken (n z p : Bool) (off9 : BitVec 9) (s : State) :
    exec (.br n z p off9) s =
      .next (s.setPc (if branchTaken n z p s.cond then s.pc + disp off9 else s.pc)) :=
  congrArg Host.Outcome.next (apply_ite s.setPc _ (s.pc + disp off9) s.pc).symm

theorem exec_br (n z p : Bool) (off9 : BitVec 9) (s : State) :
    exec (.br n z p off9) s = .next (s.setPc
      (if (n = true ∧ s.cond = .n) ∨ (z = true ∧ s.cond = .z) ∨ (p = true ∧ s.cond = .p)
        then s.pc + disp off9 else s.pc)) := by
  simp only [exec_br_branchTaken, branchTaken_iff]

theorem exec_jmp (base : RegIdx) (s : State) : exec (.jmp base) s = .next (s.setPc (s.reg base)) := rfl

theorem exec_jsr (off11 : BitVec 11) (s : State) :
    exec (.jsr off11) s = .next (s.link.setPc (s.pc + disp off11)) := rfl

/-- R144: the order of the link and the read of BaseR shows only when BaseR is R7. -/
theorem link_reg (s : State) (base : RegIdx) : s.link.reg base = if base = 7#3 then s.pc else s.reg base :=
  s.reg_setReg 7#3 base s.pc

theorem exec_jsrr (base : RegIdx) (s : State) :
    exec (.jsrr base) s = .next (s.link.setPc
      (if base = 7#3 ∧ s.params.jsrrLinkFirst = true then s.pc else s.reg base)) := by
  change execJsrr base s = _
  unfold execJsrr
  cases s.params.jsrrLinkFirst with
  | true => simp only [if_true, and_true, link_reg]
  | false => simp only [Bool.false_eq_true, if_false, and_false]

/-! ### The obligations -/

/-- Settles O27: one write of the pc, taken or not. -/
theorem brResult : Obligations.BrResult := by
  unfold Obligations.BrResult
  intro n z p off9 s
  exact ⟨row_br n z p off9, _, exec_br n z p off9 s, rfl, sameBut_setPc s _⟩

/-- Settles O28: one write of the pc, from the base register. -/
theorem jmpResult : Obligations.JmpResult := by
  unfold Obligations.JmpResult
  intro base s
  exact ⟨row_jmp base, _, exec_jmp base s, rfl, sameBut_setPc s _⟩

/-- Settles O29: the link, then the jump from the old pc, which the link leaves. -/
theorem jsrResult : Obligations.JsrResult := by
  unfold Obligations.JsrResult
  intro off11 s
  exact ⟨row_jsr off11, _, exec_jsr off11 s, link_setPc_result s _⟩

/-- Settles O30: the link, then the jump, in both orders of the link and the read of BaseR. -/
theorem jsrrResult : Obligations.JsrrResult := by
  unfold Obligations.JsrrResult
  intro base s
  exact ⟨row_jsrr base, _, exec_jsrr base s, link_setPc_result s _⟩

end Sys2Proof.Machine
end

section
/-! PROOFS. The rows of TRAP, RTI and RES (30_encoding.md R86, R94): bits 11:8 of TRAP (R92) and bits 11:0 of RTI and RES are
under no mask, so every word of the row decodes alike. -/

namespace Sys2Proof.Machine

open Sys2Proof.Spec

theorem bits_eq_fieldVect (w : Word) : bits w 0 8 = fieldVect w := bits_eq_extractLsb' w 0 8

/-- A routine's row fixes the opcode and the vector, and TRAP decodes by these two. -/
theorem row_trap_routine {pattern : Word} {i : Instr} (hop : fieldOpcode pattern = 0xF#4)
    (hmask : pattern &&& 0xF0FF#16 = pattern) (hdecode : decodeTrap (fieldVect pattern) = i) :
    Row 0xF0FF#16 pattern (fun _ => True) i := by
  rintro w hw -
  have hopw : fieldOpcode w = 0xF#4 := (fieldOpcode_of_mask (by decide) hw).trans hop
  have hvect : fieldVect w = fieldVect pattern := extract_of_mask (by decide) (hw.trans hmask.symm)
  rw [decode_trap hopw, hvect, hdecode]

/-- R160: a vector that no routine row names belongs to the generic row. -/
theorem row_trap_invalid {vect : Byte} (hv : validVector vect = false) :
    Row 0xF000#16 0xF000#16 (fun w => bits w 0 8 = vect) (.trap vect) := by
  rintro w hw rfl
  have hop : fieldOpcode w = 0xF#4 := fieldOpcode_of_mask (by decide) hw
  rw [bits_eq_fieldVect] at hv ⊢
  rw [decode_trap hop, decodeTrap_invalid hv]

theorem row_rti : Row 0xF000#16 0x8000#16 (fun _ => True) .rti :=
  fun _ hw _ => decode_rti (fieldOpcode_of_mask (by decide) hw)

theorem row_res : Row 0xF000#16 0xD000#16 (fun _ => True) .res :=
  fun _ hw _ => decode_res (fieldOpcode_of_mask (by decide) hw)

end Sys2Proof.Machine
end

section
/-! PROOFS. What a TRAP routine changes (43_trap_and_reserved.md R150, R151): the link of the trap entry, the output, the
reads of a string, and the character of a reading routine. -/

namespace Sys2Proof.Machine

open Sys2Proof.Spec Sys2Proof.Spec.Part

/-! ### The frames -/

/-- Two changes, one after the other, change at most the parts of both. -/
theorem sameBut_append {ps qs : List Part} {s t u : State} (hst : SameBut ps s t) (htu : SameBut qs t u) :
    SameBut (ps ++ qs) s u :=
  sameBut_trans (sameBut_mono hst (List.subset_append_left ps qs)) (sameBut_mono htu (List.subset_append_right ps qs))

theorem sameBut_trapEntry (s : State) : SameBut [reg 7#3] s s.trapEntry := by
  unfold State.trapEntry
  split
  · exact sameBut_setReg s 7#3 s.pc
  · exact sameBut_mono (sameBut_refl s) (by simp)

theorem sameBut_outPutAll (s : State) (cs : List Byte) : SameBut [history] s (s.outPutAll cs) := by
  simp [SameBut]

/-- A poll changes the two keyboard cells and the input, and records a character it takes, whether one has arrived or not. -/
theorem sameBut_kbsrPoll (s : State) :
    SameBut [cell Config.kbsr, cell Config.kbdr, input, history] s s.kbsrPoll := by
  cases hready : s.inReady with
  | true =>
    obtain ⟨c, rest, hin⟩ := s.inReady_iff.mp hready
    exact sameBut_kbsrPoll_ready hin
  | false => exact sameBut_mono (sameBut_kbsrPoll_idle hready) (by simp)

theorem sameBut_afterRead (s : State) (a : Word) :
    SameBut [cell Config.kbsr, cell Config.kbdr, input, history] s (s.afterRead a) := by
  unfold State.afterRead
  split
  · exact sameBut_kbsrPoll s
  · exact sameBut_mono (sameBut_refl s) (by simp)

/-- A routine that leaves R7 alone leaves there what the trap entry put, and adds R7 to what it changes. -/
theorem linkedR7_and_sameBut {ps : List Part} {s t : State} (h : SameBut ps s.trapEntry t) (hps : reg 7#3 ∉ ps) :
    LinkedR7 s t ∧ SameBut (reg 7#3 :: ps) s t := by
  have hreg7 : t.reg 7#3 = s.trapEntry.reg 7#3 := h.1 7#3 hps
  exact ⟨hreg7.trans s.trapEntry_reg7, sameBut_append (sameBut_trapEntry s) h⟩

/-! ### The reading routines (R151) -/

theorem State.waitChar_cons {s : State} {c : InChar} {rest : List InChar} (k : Byte → State → State)
    (h : s.input = c :: rest) : s.waitChar k = .next (k c.char ((s.setInput rest).emit (.inTake c.char))) := by
  simp only [State.waitChar, s.takeChar_cons h]

theorem sameBut_take (s : State) (c : Byte) (rest : List InChar) :
    SameBut [input, history] s ((s.setInput rest).emit (.inTake c)) :=
  sameBut_append (sameBut_setInput s rest) (sameBut_emit (s.setInput rest) (.inTake c))

/-- The result of GETC and IN: R0 is the character's number, and cond follows it. -/
theorem writeResult_zextByte_result (s : State) (r : RegIdx) (c : Byte) :
    ((s.writeResult r (zextByte c)).reg r).toNat = c.toNat ∧
      FlagRule ((s.writeResult r (zextByte c)).reg r) (s.writeResult r (zextByte c)).cond :=
  ⟨by rw [State.writeResult_reg_same, toNat_zextByte], flagRule_writeResult s r _⟩

/-! ### The string routines (R154, R156) -/

/-- From address a the loop of the model is the loop of the rule: the words from a to the top are fuel enough to reach the
zero word or the word at 0xFFFF. -/
theorem stringRun_stringLoop {bytes : Word → List Byte} {send : Word → State → State}
    (hsend : ∀ w s, send w s = s.outPutAll (bytes w)) (fuel : Nat) (a : Word) (s : State)
    (hfuel : a.toNat + fuel = 0x10000) : StringRun bytes a s (stringLoop send fuel a s) := by
  induction fuel generalizing a s with
  | zero => exact absurd hfuel a.isLt.ne
  | succ fuel ih =>
    unfold stringLoop
    simp only [hsend, State.outPutAll_eq]
    split_ifs with hzero htop
    · exact .zero hzero
    · subst htop
      exact .top hzero
    · have hnext : (a + 1#16).toNat = a.toNat + 1 := by bv_omega
      exact .more hzero htop (ih (a + 1#16) _ (by omega))

theorem stringRun_printString {bytes : Word → List Byte} {send : Word → State → State}
    (hsend : ∀ w s, send w s = s.outPutAll (bytes w)) (a : Word) (s : State) :
    StringRun bytes a s (printString send a s) := by
  have hfuel : a.toNat + wordsToTop a = 0x10000 := Nat.add_sub_of_le a.isLt.le
  exact stringRun_stringLoop hsend (wordsToTop a) a s hfuel

/-- The string is read and output; besides the history only a poll changes anything. -/
theorem stringRun_sameBut {bytes : Word → List Byte} {a : Word} {s t : State} (h : StringRun bytes a s t) :
    SameBut [cell Config.kbsr, cell Config.kbdr, input, history] s t := by
  have hword (a : Word) (s : State) : SameBut [cell Config.kbsr, cell Config.kbdr, input, history] s
      ((s.afterRead a).outPutAll (bytes (s.memRead a).1)) :=
    sameBut_trans (sameBut_afterRead s a) (sameBut_mono (sameBut_outPutAll _ _) (by simp))
  simp only [State.outPutAll_eq] at hword
  induction h with
  | zero => exact sameBut_afterRead _ _
  | top => exact hword _ _
  | more _ _ _ ih => exact sameBut_trans (hword _ _) ih

/-- A string routine after the trap entry, which leaves the address in R0. -/
theorem printString_result {bytes : Word → List Byte} {send : Word → State → State}
    (hsend : ∀ w s, send w s = s.outPutAll (bytes w)) (s : State) :
    StringRun bytes (s.reg 0#3) (linked s) (printString send (s.reg 0#3) s.trapEntry) ∧
      LinkedR7 s (printString send (s.reg 0#3) s.trapEntry) ∧
      SameBut [reg 7#3, cell Config.kbsr, cell Config.kbdr, input, history] s
        (printString send (s.reg 0#3) s.trapEntry) := by
  have hrun := stringRun_printString hsend (s.reg 0#3) s.trapEntry
  exact ⟨hrun, linkedR7_and_sameBut (stringRun_sameBut hrun) (by simp)⟩

theorem sendWord_eq_outPutAll (w : Word) (s : State) : sendWord w s = s.outPutAll [bits w 0 8] := by
  rw [bits_eq_extractLsb']
  rfl

theorem sendPacked_eq_outPutAll (w : Word) (s : State) :
    sendPacked w s = s.outPutAll (if bits w 8 8 = 0x00#8 then [bits w 0 8] else [bits w 0 8, bits w 8 8]) := by
  rw [bits_eq_extractLsb' w 8 8, bits_eq_extractLsb' w 0 8]
  exact (apply_ite s.outPutAll (highByte w = 0x00#8) [lowByte w] [lowByte w, highByte w]).symm

end Sys2Proof.Machine
end

section
/-! PROOFS. GETC, OUT, PUTS, IN, PUTSP, HALT, a TRAP with a bad vector, RTI and RES (43_trap_and_reserved.md R152 to R157,
R160 to R162): the meaning of each as a chain of named updates after the trap entry, and what that chain leaves. -/

namespace Sys2Proof.Machine

open Sys2Proof.Spec Sys2Proof.Spec.Part

/-! ### The meaning of each instruction -/

theorem exec_trapPuts (s : State) :
    exec .trapPuts s = .next (printString sendWord (s.reg 0#3) s.trapEntry) := by
  rw [← s.trapEntry_reg0]
  rfl

theorem exec_trapPutsp (s : State) :
    exec .trapPutsp s = .next (printString sendPacked (s.reg 0#3) s.trapEntry) := by
  rw [← s.trapEntry_reg0]
  rfl

theorem exec_trapGetc {s : State} {c : InChar} {rest : List InChar} (h : s.input = c :: rest) :
    exec .trapGetc s =
      .next (((s.trapEntry.setInput rest).emit (.inTake c.char)).writeResult 0#3 (zextByte c.char)) :=
  State.waitChar_cons _ (s.trapEntry_input.trans h)

theorem exec_trapOut (s : State) :
    exec .trapOut s = .next (s.trapEntry.emit (.outPut (bits (s.reg 0#3) 0 8))) := by
  rw [bits_eq_extractLsb', ← s.trapEntry_reg0]
  rfl

/-- R155: the prompt, the take, the echo, the result, in this order. -/
theorem exec_trapIn {s : State} {c : InChar} {rest : List InChar} (h : s.input = c :: rest) :
    exec .trapIn s =
      .next (((((s.trapEntry.outPutAll s.params.inPrompt).setInput rest).emit (.inTake c.char)).emit
        (.outPut c.char)).writeResult 0#3 (zextByte c.char)) := by
  rw [← s.trapEntry_params]
  exact State.waitChar_cons _ (((State.outPutAll_input _ _).trans s.trapEntry_input).trans h)

theorem exec_trapHalt (s : State) :
    exec .trapHalt s = .next ((s.trapEntry.outPutAll s.params.haltBanner).stopWith .halt) := by
  rw [← s.trapEntry_params]
  rfl

/-- R160: of the nine cases of a TRAP only the last has a vector outside 0x20-0x27. -/
theorem exec_trap_invalid {vect : Byte} (hv : ¬ (0x20 ≤ vect.toNat ∧ vect.toNat ≤ 0x27)) (s : State) :
    exec (.trap vect) s = .next (s.emit (.diag (.badTrap s.ipc vect s.ir))) := by
  obtain ⟨rfl, -⟩ | ⟨rfl, -⟩ | ⟨rfl, -⟩ | ⟨rfl, -⟩ | ⟨rfl, -⟩ | ⟨rfl, -⟩ | ⟨rfl, -⟩ | ⟨rfl, -⟩ | ⟨-, h⟩ :=
    execTrap_cases vect s
  iterate 8 exact absurd (by decide) hv
  exact h

theorem exec_rti (s : State) : exec .rti s = .next (s.emit (.diag (.badOpcode s.ipc 0x8#4 s.ir))) := rfl

theorem exec_res (s : State) : exec .res s = .next (s.emit (.diag (.badOpcode s.ipc 0xD#4 s.ir))) := rfl

/-! ### The obligations -/

/-- Settles O33: the rule's loop, sending the low byte of each word. -/
theorem putsResult : Obligations.PutsResult := by
  unfold Obligations.PutsResult
  exact ⟨row_trap_routine (by decide) (by decide) rfl,
    fun s => ⟨_, exec_trapPuts s, printString_result sendWord_eq_outPutAll s⟩⟩

/-- Settles O35: the rule's loop, sending the low byte of each word and then a high byte that is not zero. -/
theorem putspResult : Obligations.PutspResult := by
  unfold Obligations.PutspResult
  exact ⟨row_trap_routine (by decide) (by decide) rfl,
    fun s => ⟨_, exec_trapPutsp s, printString_result sendPacked_eq_outPutAll s⟩⟩

/-- Settles O31: the take, then the result; R7 keeps what the trap entry left there. -/
theorem getcResult : Obligations.GetcResult := by
  unfold Obligations.GetcResult
  refine ⟨row_trap_routine (by decide) (by decide) rfl, fun s c rest hin => ?_⟩
  obtain ⟨hvalue, hflags⟩ :=
    writeResult_zextByte_result ((s.trapEntry.setInput rest).emit (.inTake c.char)) 0#3 c.char
  obtain ⟨hlink, hframe⟩ := linkedR7_and_sameBut
    (sameBut_append (sameBut_take s.trapEntry c.char rest) (sameBut_writeResult _ 0#3 (zextByte c.char))) (by simp)
  refine ⟨_, exec_trapGetc hin, hvalue, hflags, rfl, ?_, hlink, sameBut_mono hframe (by simp)⟩
  simp

/-- Settles O32: one byte of output after the trap entry. -/
theorem outResult : Obligations.OutResult := by
  unfold Obligations.OutResult
  refine ⟨row_trap_routine (by decide) (by decide) rfl, fun s => ⟨_, exec_trapOut s, ?_, ?_⟩⟩
  · rw [State.emit_history, State.trapEntry_history]
  · exact linkedR7_and_sameBut (sameBut_emit s.trapEntry _) (by simp)

/-- Settles O34: the prompt, the take and the echo are the events, in this order; R7 keeps what the trap entry left there. -/
theorem inResult : Obligations.InResult := by
  unfold Obligations.InResult
  refine ⟨row_trap_routine (by decide) (by decide) rfl, fun s c rest hin => ?_⟩
  obtain ⟨hvalue, hflags⟩ := writeResult_zextByte_result
    ((((s.trapEntry.outPutAll s.params.inPrompt).setInput rest).emit (.inTake c.char)).emit (.outPut c.char)) 0#3 c.char
  have htaken := sameBut_append (sameBut_outPutAll s.trapEntry s.params.inPrompt) (sameBut_take _ c.char rest)
  have hechoed := sameBut_append htaken (sameBut_emit _ (.outPut c.char))
  obtain ⟨hlink, hframe⟩ := linkedR7_and_sameBut
    (sameBut_append hechoed (sameBut_writeResult _ 0#3 (zextByte c.char))) (by simp)
  refine ⟨_, exec_trapIn hin, hvalue, hflags, rfl, ?_, hlink, sameBut_mono hframe (by simp)⟩
  simp

/-- Settles O36: the banner, then the halt, after which no step changes anything (R196). -/
theorem haltResult : Obligations.HaltResult := by
  unfold Obligations.HaltResult
  refine ⟨row_trap_routine (by decide) (by decide) rfl, fun s => ?_⟩
  obtain ⟨hlink, hframe⟩ := linkedR7_and_sameBut
    (sameBut_append (sameBut_outPutAll s.trapEntry s.params.haltBanner) (sameBut_stopWith _ .halt)) (by simp)
  refine ⟨_, exec_trapHalt s, rfl, rfl, ?_, hlink, sameBut_mono hframe (by simp), step_of_halted rfl⟩
  rw [State.stopWith_history, State.outPutAll_history, State.trapEntry_history]

/-- Settles O39: a vector outside 0x20-0x27 is the generic row's, and its meaning is one diagnostic event. -/
theorem badTrapResult : Obligations.BadTrapResult := by
  unfold Obligations.BadTrapResult
  intro vect s hvect
  have hrange : ¬ (0x20 ≤ vect.toNat ∧ vect.toNat ≤ 0x27) := by omega
  have hinvalid : validVector vect = false := Bool.eq_false_iff.mpr fun h => hrange ((validVector_iff vect).mp h)
  exact ⟨row_trap_invalid hinvalid, _, exec_trap_invalid hrange s, rfl, sameBut_emit s _⟩

/-- Settles O43: one diagnostic event each. -/
theorem reservedOpcodesReport : Obligations.ReservedOpcodesReport := by
  unfold Obligations.ReservedOpcodesReport
  exact ⟨row_rti, row_res, fun s =>
    ⟨⟨_, exec_rti s, rfl, sameBut_emit s _⟩, ⟨_, exec_res s, rfl, sameBut_emit s _⟩⟩⟩

end Sys2Proof.Machine
end

section
/-! PROOFS. Halted is terminal (60_exceptions.md R196): a state that a step answers unchanged is what every longer run answers,
and the halted port reads the run state. -/

namespace Sys2Proof.Machine

/-- A step that goes on, then the rest of the run. -/
theorem run_succ_of_step_next {M : Host.Core} {s t : M.State} (h : M.step s = .next t) (n : Nat) :
    M.run (n + 1) s = M.run n t := by
  rw [Host.Core.run, h]

/-- A state that a step leaves as it is, is left so by any number of steps. -/
theorem run_of_step_fixed {M : Host.Core} {s : M.State} (h : M.step s = .next s) (n : Nat) : M.run n s = .next s := by
  induction n with
  | zero => rfl
  | succ n ih => exact (run_succ_of_step_next h n).trans ih

theorem State.haltedPort_iff (s : State) : s.haltedPort = true ↔ s.run = .halted := by
  simp [State.haltedPort]

/-- Settles O46: a halted state is a fixed point of the step, so of every run. -/
theorem haltedIsTerminal : Obligations.HaltedIsTerminal := by
  unfold Obligations.HaltedIsTerminal
  intro s n hhalted
  have hfixed : Sys2Proof.core.step s = .next s := step_of_halted hhalted
  exact ⟨run_of_step_fixed hfixed n, s.haltedPort_iff.mpr hhalted⟩

end Sys2Proof.Machine
end

section
/-! PROOFS. The image file (70_reset_and_hazards.md R209): the two bytes of a word joined are the word, so reading the file of a
list of words takes one word off it for every two bytes. -/

namespace Sys2Proof.Machine

open Sys2Proof.Spec

/-- Bits 15:8 of a word, joined with its bits 7:0, are the word. -/
theorem bits_high_append_bits_low (w : Word) : bits w 8 8 ++ bits w 0 8 = w := by
  rw [bits_eq_extractLsb', bits_eq_extractLsb']
  exact BitVec.extractLsb'_append_extractLsb' (w := 8) (len := 8)

/-- Two bytes before a readable rest are one word before the words of the rest, the first byte in its bits 15:8. -/
theorem imageWords_cons_cons {rest : List Byte} {ws : List Word} (hrest : imageWords rest = .ok ws) (hi lo : Byte) :
    imageWords (hi :: lo :: rest) = .ok ((hi ++ lo) :: ws) := by
  rw [imageWords, hrest]

/-- Settles O4, by induction on the words: each takes its own two bytes off the file. -/
theorem imageFileIsBigEndian : Obligations.ImageFileIsBigEndian := by
  unfold Obligations.ImageFileIsBigEndian
  intro ws
  induction ws with
  | nil => rfl
  | cons w ws ih =>
    rw [List.flatMap_cons, List.cons_append, List.cons_append, List.nil_append, imageWords_cons_cons ih,
      bits_high_append_bits_low]

end Sys2Proof.Machine
end

section
/-! PROOFS. The decoder reads back what the encoder writes (30_encoding.md R87, R88, R95): format by format, the fields of the
word are the operands of the instruction. -/

namespace Sys2Proof.Machine

/-! ### The two modes of ADD and AND, and JSRR (R90, R91) -/

theorem decode_addReg {w : Word} (hop : fieldOpcode w = 0x1#4) (hmode : w.getLsbD 5 = false) :
    decode w = .addReg (fieldDr w) (fieldSr1 w) (fieldSr2 w) :=
  (decode_add hop).trans (if_neg (Bool.eq_false_iff.mp hmode))

theorem decode_addImm {w : Word} (hop : fieldOpcode w = 0x1#4) (hmode : w.getLsbD 5 = true) :
    decode w = .addImm (fieldDr w) (fieldSr1 w) (fieldImm5 w) :=
  (decode_add hop).trans (if_pos hmode)

theorem decode_andReg {w : Word} (hop : fieldOpcode w = 0x5#4) (hmode : w.getLsbD 5 = false) :
    decode w = .andReg (fieldDr w) (fieldSr1 w) (fieldSr2 w) :=
  (decode_and hop).trans (if_neg (Bool.eq_false_iff.mp hmode))

theorem decode_andImm {w : Word} (hop : fieldOpcode w = 0x5#4) (hmode : w.getLsbD 5 = true) :
    decode w = .andImm (fieldDr w) (fieldSr1 w) (fieldImm5 w) :=
  (decode_and hop).trans (if_pos hmode)

theorem decode_jsrr {w : Word} (hop : fieldOpcode w = 0x4#4) (hform : w.getLsbD 11 = false) :
    decode w = .jsrr (fieldSr1 w) :=
  (decode_jsr hop).trans (if_neg (Bool.eq_false_iff.mp hform))

/-! ### The formats of an encoded word -/

/-- The operate format in register mode (bit 5 clear), for the opcodes that decode by it to `mk`. -/
theorem decode_place_reg_reg_reg {op : BitVec 4} {mk : RegIdx → RegIdx → RegIdx → Instr}
    (hdecode : ∀ w, fieldOpcode w = op → w.getLsbD 5 = false → decode w = mk (fieldDr w) (fieldSr1 w) (fieldSr2 w))
    (dr sr1 sr2 : RegIdx) :
    decode (place 12 op ||| place 9 dr ||| place 6 sr1 ||| place 0 sr2) = mk dr sr1 sr2 := by
  rw [hdecode]
  all_goals simp (disch := decide) [fieldOpcode, fieldDr, fieldSr1, fieldSr2, getElem_place, extract_or,
    extract_place_same, extract_place_above, extract_place_below]

/-- The operate format in immediate mode (bit 5 set), for the opcodes that decode by it to `mk`. -/
theorem decode_place_reg_reg_imm5 {op : BitVec 4} {mk : RegIdx → RegIdx → BitVec 5 → Instr}
    (hdecode : ∀ w, fieldOpcode w = op → w.getLsbD 5 = true → decode w = mk (fieldDr w) (fieldSr1 w) (fieldImm5 w))
    (dr sr1 : RegIdx) (imm5 : BitVec 5) :
    decode (place 12 op ||| place 9 dr ||| place 6 sr1 ||| place 5 0b1#1 ||| place 0 imm5) = mk dr sr1 imm5 := by
  rw [hdecode]
  all_goals simp (disch := decide) [fieldOpcode, fieldDr, fieldSr1, fieldImm5, getElem_place, extract_or,
    extract_place_same, extract_place_above, extract_place_below]

/-- One register and PCoffset9, for the opcodes that decode by this format to `mk`. -/
theorem decode_place_reg_off9 {op : BitVec 4} {mk : RegIdx → BitVec 9 → Instr}
    (hdecode : ∀ w, fieldOpcode w = op → decode w = mk (fieldDr w) (fieldOff9 w)) (r : RegIdx) (off9 : BitVec 9) :
    decode (place 12 op ||| place 9 r ||| place 0 off9) = mk r off9 := by
  rw [hdecode]
  all_goals simp (disch := decide) [fieldOpcode, fieldDr, fieldOff9, extract_or, extract_place_same,
    extract_place_above, extract_place_below]

/-- One register, BaseR and offset6, for the opcodes that decode by this format to `mk`. -/
theorem decode_place_reg_base_off6 {op : BitVec 4} {mk : RegIdx → RegIdx → BitVec 6 → Instr}
    (hdecode : ∀ w, fieldOpcode w = op → decode w = mk (fieldDr w) (fieldSr1 w) (fieldOff6 w))
    (r base : RegIdx) (off6 : BitVec 6) :
    decode (place 12 op ||| place 9 r ||| place 6 base ||| place 0 off6) = mk r base off6 := by
  rw [hdecode]
  all_goals simp (disch := decide) [fieldOpcode, fieldDr, fieldSr1, fieldOff6, extract_or, extract_place_same,
    extract_place_above, extract_place_below]

theorem decode_encode_br (n z p : Bool) (off9 : BitVec 9) : decode (encode (.br n z p off9)) = .br n z p off9 := by
  rw [decode_br (Laws.OpcodeField.br n z p off9)]
  simp (disch := decide) [encode, fieldOff9, getElem_place, extract_or, extract_place_same, extract_place_below]

theorem decode_encode_jsr (off11 : BitVec 11) : decode (encode (.jsr off11)) = .jsr off11 := by
  rw [decode_jsr (Laws.OpcodeField.jsr off11)]
  simp (disch := decide) [encode, fieldOff11, getElem_place, extract_or, extract_place_same, extract_place_below]

theorem decode_encode_jsrr (base : RegIdx) : decode (encode (.jsrr base)) = .jsrr base := by
  rw [decode_jsr (Laws.OpcodeField.jsrr base)]
  simp (disch := decide) [encode, fieldSr1, getElem_place, extract_or, extract_place_same, extract_place_below]

theorem decode_encode_notReg (dr sr1 : RegIdx) : decode (encode (.notReg dr sr1)) = .notReg dr sr1 := by
  rw [decode_not (Laws.OpcodeField.notReg dr sr1)]
  simp (disch := decide) [encode, fieldDr, fieldSr1, extract_or, extract_place_same, extract_place_above,
    extract_place_below]

theorem decode_encode_jmp (base : RegIdx) : decode (encode (.jmp base)) = .jmp base := by
  rw [decode_jmp (Laws.OpcodeField.jmp base)]
  simp (disch := decide) [encode, fieldSr1, extract_or, extract_place_same, extract_place_below]

/-- R94: a TRAP word decodes by its vector. -/
theorem decode_place_vect (vect : Byte) : decode (place 12 0xF#4 ||| place 0 vect) = decodeTrap vect := by
  rw [decode_trap (w := place 12 0xF#4 ||| place 0 vect) (Laws.OpcodeField.trap vect)]
  simp (disch := decide) [fieldVect, extract_or, extract_place_same, extract_place_below]

/-! ### The obligations -/

/-- Settles O6, by the format of each row. -/
theorem decodeEncodeRoundTrip : Obligations.DecodeEncodeRoundTrip := by
  unfold Obligations.DecodeEncodeRoundTrip
  intro i hwf
  cases i with
  | br n z p off9 => exact decode_encode_br n z p off9
  | addReg dr sr1 sr2 => exact decode_place_reg_reg_reg (fun _ => decode_addReg) dr sr1 sr2
  | addImm dr sr1 imm5 => exact decode_place_reg_reg_imm5 (fun _ => decode_addImm) dr sr1 imm5
  | ld dr off9 => exact decode_place_reg_off9 (fun _ => decode_ld) dr off9
  | st sr off9 => exact decode_place_reg_off9 (fun _ => decode_st) sr off9
  | jsr off11 => exact decode_encode_jsr off11
  | jsrr base => exact decode_encode_jsrr base
  | andReg dr sr1 sr2 => exact decode_place_reg_reg_reg (fun _ => decode_andReg) dr sr1 sr2
  | andImm dr sr1 imm5 => exact decode_place_reg_reg_imm5 (fun _ => decode_andImm) dr sr1 imm5
  | ldr dr base off6 => exact decode_place_reg_base_off6 (fun _ => decode_ldr) dr base off6
  | str sr base off6 => exact decode_place_reg_base_off6 (fun _ => decode_str) sr base off6
  | rti => exact decode_rti Laws.OpcodeField.rti
  | notReg dr sr1 => exact decode_encode_notReg dr sr1
  | ldi dr off9 => exact decode_place_reg_off9 (fun _ => decode_ldi) dr off9
  | sti sr off9 => exact decode_place_reg_off9 (fun _ => decode_sti) sr off9
  | jmp base => exact decode_encode_jmp base
  | res => exact decode_res Laws.OpcodeField.res
  | lea dr off9 => exact decode_place_reg_off9 (fun _ => decode_lea) dr off9
  | trap vect =>
    have hinvalid : validVector vect = false := by simpa [Instr.wf] using hwf
    exact (decode_place_vect vect).trans (decodeTrap_invalid hinvalid)
  | trapGetc => exact decode_place_vect 0x20#8
  | trapOut => exact decode_place_vect 0x21#8
  | trapPuts => exact decode_place_vect 0x22#8
  | trapIn => exact decode_place_vect 0x23#8
  | trapPutsp => exact decode_place_vect 0x24#8
  | trapHalt => exact decode_place_vect 0x25#8
  | trapInu16 => exact decode_place_vect 0x26#8
  | trapOutu16 => exact decode_place_vect 0x27#8

theorem wf_ite {c : Prop} [Decidable c] {i j : Instr} (hi : i.wf = true) (hj : j.wf = true) :
    (if c then i else j).wf = true := by
  split
  · exact hi
  · exact hj

/-- R95: every branch of the decoder but TRAP's is well-formed whatever its operands are. -/
theorem decode_wf (w : Word) : (decode w).wf = true := by
  unfold decode
  repeat' with_reducible apply wf_ite
  on_goal -1 => exact decodeTrap_wf (fieldVect w)
  all_goals rfl

/-- Settles O7: what a word decodes to is well-formed, so the round trip of O6 applies to it. -/
theorem everyWordIsOneInstruction : Obligations.EveryWordIsOneInstruction := by
  unfold Obligations.EveryWordIsOneInstruction
  exact fun w => ⟨decode_wf w, decodeEncodeRoundTrip (decode w) (decode_wf w)⟩

/-! ### Ignored bits (R92) -/

/-- Words that agree under a mask of the bits a row uses have one opcode, the row's. -/
theorem fieldOpcode_pair {w w' mask used pattern : Word} (hmask : fieldOpcode mask = 0xF#4)
    (hused : fieldOpcode used = 0xF#4) (hrow : w &&& mask = pattern) (hagree : w' &&& used = w &&& used) :
    fieldOpcode w = fieldOpcode pattern ∧ fieldOpcode w' = fieldOpcode pattern := by
  have hop : fieldOpcode w = fieldOpcode pattern := fieldOpcode_of_mask hmask hrow
  exact ⟨hop, (extract_of_mask hused hagree).trans hop⟩

/-- Words that agree under a mask agree in every bit it covers. -/
theorem getLsbD_of_masks {w w' used : Word} {k : Nat} (hk : used.getLsbD k = true) (hagree : w' &&& used = w &&& used) :
    w'.getLsbD k = w.getLsbD k := by
  rw [getLsbD_of_mask hk hagree, BitVec.getLsbD_and, hk, Bool.and_true]

theorem fieldDr_of_mask {w w' used : Word} (hused : fieldDr used = 0x7#3) (hagree : w' &&& used = w &&& used) :
    fieldDr w' = fieldDr w := extract_of_mask hused hagree

theorem fieldSr1_of_mask {w w' used : Word} (hused : fieldSr1 used = 0x7#3) (hagree : w' &&& used = w &&& used) :
    fieldSr1 w' = fieldSr1 w := extract_of_mask hused hagree

theorem fieldSr2_of_mask {w w' used : Word} (hused : fieldSr2 used = 0x7#3) (hagree : w' &&& used = w &&& used) :
    fieldSr2 w' = fieldSr2 w := extract_of_mask hused hagree

theorem fieldVect_of_mask {w w' used : Word} (hused : fieldVect used = 0xFF#8) (hagree : w' &&& used = w &&& used) :
    fieldVect w' = fieldVect w := extract_of_mask hused hagree

/-- Settles O8: the decoder reads the opcode, for some opcodes a mode bit, and the fields of the row, and no ignored bit is
among them. -/
theorem unusedBitsAreIgnored : Obligations.UnusedBitsAreIgnored := by
  unfold Obligations.UnusedBitsAreIgnored
  intro w w'
  refine ⟨fun hrow hagree => ?_, fun hrow hagree => ?_, fun hrow hagree => ?_, fun hrow hagree => ?_,
    fun hrow hagree => ?_, fun hrow hagree => ?_, fun hrow hagree => ?_, fun hrow hagree => ?_⟩
  all_goals obtain ⟨hop, hop'⟩ := fieldOpcode_pair (by decide) (by decide) hrow hagree
  case refine_1 => -- ADD, register mode
    have hmode : w.getLsbD 5 = false := getLsbD_of_mask (by decide) hrow
    have hmode' : w'.getLsbD 5 = false := (getLsbD_of_masks (by decide) hagree).trans hmode
    rw [decode_addReg hop hmode, decode_addReg hop' hmode', fieldDr_of_mask (by decide) hagree,
      fieldSr1_of_mask (by decide) hagree, fieldSr2_of_mask (by decide) hagree]
  case refine_2 => -- AND, register mode
    have hmode : w.getLsbD 5 = false := getLsbD_of_mask (by decide) hrow
    have hmode' : w'.getLsbD 5 = false := (getLsbD_of_masks (by decide) hagree).trans hmode
    rw [decode_andReg hop hmode, decode_andReg hop' hmode', fieldDr_of_mask (by decide) hagree,
      fieldSr1_of_mask (by decide) hagree, fieldSr2_of_mask (by decide) hagree]
  case refine_3 => -- NOT
    rw [decode_not hop, decode_not hop', fieldDr_of_mask (by decide) hagree, fieldSr1_of_mask (by decide) hagree]
  case refine_4 => -- JSRR
    have hform : w.getLsbD 11 = false := getLsbD_of_mask (by decide) hrow
    have hform' : w'.getLsbD 11 = false := (getLsbD_of_masks (by decide) hagree).trans hform
    rw [decode_jsrr hop hform, decode_jsrr hop' hform', fieldSr1_of_mask (by decide) hagree]
  case refine_5 => -- JMP
    rw [decode_jmp hop, decode_jmp hop', fieldSr1_of_mask (by decide) hagree]
  case refine_6 => -- RTI
    rw [decode_rti hop, decode_rti hop']
  case refine_7 => -- RES
    rw [decode_res hop, decode_res hop']
  case refine_8 => -- TRAP
    rw [decode_trap hop, decode_trap hop', fieldVect_of_mask (by decide) hagree]

/-- Settles O5: the decoder evaluated on each word. -/
theorem sampleWordsDecode : Obligations.SampleWordsDecode := by
  unfold Obligations.SampleWordsDecode
  decide

end Sys2Proof.Machine
end

section
/-! PROOFS. The invariants of every step (10_state.md section 4 and R33, R35; 20_memory.md R60 to R63): a step is a chain of
primitive effects, so each statement is checked on each effect and `step_induction` carries it to the step. -/

namespace Sys2Proof.Machine

/-! ### The canonical memory form and the stop cause -/

theorem inv_setCell {s : State} (h : s.Inv) (a v : Word) : (s.setCell a v).Inv :=
  ⟨Memory.wf_write h.1 a.isLt v, h.2⟩

theorem inv_stopWith {s : State} (h : s.Inv) {c : StopCause} (hc : c ≠ .none) : (s.stopWith c).Inv :=
  ⟨h.1, by simp [hc]⟩

theorem inv_kbsrPoll {s : State} (h : s.Inv) : s.kbsrPoll.Inv := by
  cases hready : s.inReady with
  | true =>
    obtain ⟨c, rest, hin⟩ := s.inReady_iff.mp hready
    have htaken : ((s.setInput rest).emit (.inTake c)).Inv := h
    rw [State.kbsrPoll_ready hin]
    exact inv_setCell (inv_setCell htaken _ _) _ _
  | false =>
    obtain ⟨cs, -, hpoll⟩ := State.kbsrPoll_idle hready
    have hwaited : (s.setInput cs).Inv := h
    rw [hpoll]
    exact inv_setCell hwaited _ _

theorem ExecEffect.inv {s t : State} (he : ExecEffect s t) (h : s.Inv) : t.Inv := by
  cases he with
  | setReg | setPc | setCond | outPut | report | take => exact h
  | poll => exact inv_kbsrPoll h
  | store a v => exact inv_setCell h a v
  | halt => exact inv_stopWith h (by decide)

theorem StepEffect.inv {s t : State} (he : StepEffect s t) (h : s.Inv) : t.Inv := by
  cases he with
  | exec he => exact he.inv h
  | setFetched | trace | raiseStop | hostWait => exact h
  | takeStop => exact inv_stopWith h (by decide)

/-- Settles O55: every effect keeps the invariant; the ones with content are the stores, the poll and the two stops. -/
theorem stepKeepsTheInvariant : Obligations.StepKeepsTheInvariant := by
  unfold Obligations.StepKeepsTheInvariant
  intro s t hs h
  exact step_induction (R := fun s t => s.Inv → t.Inv) (fun _ => id) (fun hst htu hs => htu (hst hs)) StepEffect.inv h hs

/-- Settles O56: zero memory is canonical, and placing an image keeps the form. -/
theorem invariantHoldsWhenTheRunBegins : Obligations.InvariantHoldsWhenTheRunBegins := by
  unfold Obligations.InvariantHoldsWhenTheRunBegins
  refine ⟨⟨by decide, by decide⟩, fun p initMem base image entry input pending after t hwf hload => ?_⟩
  cases image with
  | nil => cases hload
  | cons w ws =>
    cases hload
    exact ⟨Memory.wf_place (w :: ws) hwf base.toNat, fun _ => rfl, fun _ => rfl⟩

/-! ### The protected cells -/

theorem Protected.ne_kbsr {a : Word} (h : Protected a) : a ≠ Config.kbsr := by
  rintro rfl
  simp [Protected, Config.kbsr] at h

theorem Protected.ne_kbdr {a : Word} (h : Protected a) : a ≠ Config.kbdr := by
  rintro rfl
  simp [Protected, Config.kbdr] at h

/-- An address that MemWrite stores to (R63) is not protected. -/
theorem Protected.ne_stored {a b : Word} (h : Protected a) (hddr : b ≠ Config.ddr) (hmcr : b ≠ Config.mcr)
    (htop : Config.protectedTop < b) : a ≠ b := by
  rintro rfl
  obtain hlow | rfl | rfl := h
  · exact absurd htop (Nat.not_lt.mpr hlow)
  · exact hddr rfl
  · exact hmcr rfl

theorem ExecEffect.cell_protected {s t : State} (he : ExecEffect s t) {a : Word} (ha : Protected a) :
    t.cell a = s.cell a := by
  cases he with
  | setReg | setPc | setCond | outPut | report | take | halt => rfl
  | poll => exact s.kbsrPoll_cell_other ha.ne_kbsr ha.ne_kbdr
  | store b v hddr hmcr htop => exact s.cell_setCell_other (ha.ne_stored hddr hmcr htop) v

theorem StepEffect.cell_protected {s t : State} (he : StepEffect s t) {a : Word} (ha : Protected a) :
    t.cell a = s.cell a := by
  cases he with
  | exec he => exact he.cell_protected ha
  | setFetched | trace | raiseStop | hostWait | takeStop => rfl

/-- Settles O57: of the effects only a poll and a store write a cell, and theirs are not protected. -/
theorem protectedCellsNeverChange : Obligations.ProtectedCellsNeverChange := by
  unfold Obligations.ProtectedCellsNeverChange
  intro s t a ha h
  exact step_induction (R := fun s t => t.cell a = s.cell a) (fun _ => rfl) (fun hst htu => htu.trans hst)
    (fun he => he.cell_protected ha) h

/-! ### The input and the history -/

/-- The history only grows, and the characters that left the input are those the new events report, in order. -/
def InputAccounted (s t : State) : Prop :=
  ∃ events : List Event, t.history = s.history ++ events ∧
    s.input.map InChar.char = events.filterMap Event.taken? ++ t.input.map InChar.char

theorem InputAccounted.of_eq {s t : State} (hhistory : t.history = s.history)
    (hinput : t.input.map InChar.char = s.input.map InChar.char) : InputAccounted s t :=
  ⟨[], by simp [hhistory], hinput.symm⟩

theorem InputAccounted.trans {s t u : State} (hst : InputAccounted s t) (htu : InputAccounted t u) :
    InputAccounted s u := by
  obtain ⟨es, hes, hs⟩ := hst
  obtain ⟨es', hes', ht⟩ := htu
  exact ⟨es ++ es', by rw [hes', hes, List.append_assoc], by rw [hs, ht, List.filterMap_append, List.append_assoc]⟩

theorem InputAccounted.of_emit (s : State) {e : Event} (he : e.taken? = none) : InputAccounted s (s.emit e) :=
  ⟨[e], rfl, by simp [he]⟩

theorem InputAccounted.of_take {s : State} {c : InChar} {rest : List InChar} (h : s.input = c :: rest) :
    InputAccounted s ((s.setInput rest).emit (.inTake c.char)) :=
  ⟨[.inTake c.char], rfl, by simp [h, Event.taken?]⟩

theorem InputAccounted.of_kbsrPoll (s : State) : InputAccounted s s.kbsrPoll := by
  cases hready : s.inReady with
  | true =>
    obtain ⟨c, rest, hin⟩ := s.inReady_iff.mp hready
    rw [State.kbsrPoll_ready hin]
    exact .of_take hin
  | false =>
    obtain ⟨cs, hchars, hpoll⟩ := State.kbsrPoll_idle hready
    rw [hpoll]
    exact .of_eq rfl hchars

theorem ExecEffect.inputAccounted {s t : State} (he : ExecEffect s t) : InputAccounted s t := by
  cases he with
  | setReg | setPc | setCond | store | halt => exact .of_eq rfl rfl
  | outPut | report => exact .of_emit s rfl
  | poll => exact .of_kbsrPoll s
  | take c rest hin => exact .of_take hin

theorem StepEffect.inputAccounted {s t : State} (he : StepEffect s t) : InputAccounted s t := by
  cases he with
  | exec he => exact he.inputAccounted
  | setFetched | hostWait | takeStop => exact .of_eq rfl rfl
  | trace | raiseStop => exact .of_emit _ rfl

/-- Settles O58: only the two takes, of a reading routine and of a poll, shorten the input, and each reports its character. -/
theorem inputIsNeverLostOrReordered : Obligations.InputIsNeverLostOrReordered := by
  unfold Obligations.InputIsNeverLostOrReordered
  intro s t h
  exact step_induction (R := InputAccounted) (fun _ => .of_eq rfl rfl) .trans StepEffect.inputAccounted h

/-! ### The parameters and the stop latch -/

theorem ExecEffect.params_stopPending {s t : State} (he : ExecEffect s t) :
    t.params = s.params ∧ t.stopPending = s.stopPending := by
  cases he with
  | setReg | setPc | setCond | outPut | report | take | store | halt => exact ⟨rfl, rfl⟩
  | poll => exact ⟨s.kbsrPoll_params, s.kbsrPoll_stopPending⟩

theorem StepEffect.params_stopPending {s t : State} (he : StepEffect s t) :
    t.params = s.params ∧ (s.stopPending = true → t.stopPending = true) := by
  cases he with
  | exec he =>
    obtain ⟨hparams, hpending⟩ := he.params_stopPending
    exact ⟨hparams, fun h => hpending.trans h⟩
  | setFetched | trace | hostWait | takeStop => exact ⟨rfl, id⟩
  | raiseStop => exact ⟨rfl, fun _ => rfl⟩

/-- Settles O59: no effect writes the parameters, and the host's raise, the only write of the latch, sets it. -/
theorem parametersAndStopLatchPersist : Obligations.ParametersAndStopLatchPersist := by
  unfold Obligations.ParametersAndStopLatchPersist
  intro s t h
  exact step_induction (R := fun s t => t.params = s.params ∧ (s.stopPending = true → t.stopPending = true))
    (fun _ => ⟨rfl, id⟩) (fun hst htu => ⟨htu.1.trans hst.1, fun h => htu.2 (hst.2 h)⟩)
    StepEffect.params_stopPending h

end Sys2Proof.Machine
end

section
/-! PROOFS. TRAP's generic row (43_trap_and_reserved.md R150): with any vector it is the row that the decoder gives the vector, so
a rule over all instructions need only be proved of the well-formed ones. -/

namespace Sys2Proof.Machine

open Sys2Proof.Spec

theorem validVector_cases {v : Byte} (h : validVector v = true) :
    v = 0x20#8 ∨ v = 0x21#8 ∨ v = 0x22#8 ∨ v = 0x23#8 ∨ v = 0x24#8 ∨ v = 0x25#8 ∨ v = 0x26#8 ∨ v = 0x27#8 := by
  obtain ⟨hlow, hhigh⟩ := (validVector_iff v).mp h
  simp only [← BitVec.toNat_inj, BitVec.toNat_ofNat]
  omega

/-- What holds of the row of each of the eight vectors, and of the generic row for all others. -/
theorem forall_vector {P : Byte → Instr → Prop} (hgetc : P 0x20#8 .trapGetc) (hout : P 0x21#8 .trapOut)
    (hputs : P 0x22#8 .trapPuts) (hin : P 0x23#8 .trapIn) (hputsp : P 0x24#8 .trapPutsp) (hhalt : P 0x25#8 .trapHalt)
    (hinu16 : P 0x26#8 .trapInu16) (houtu16 : P 0x27#8 .trapOutu16)
    (hinvalid : ∀ v, validVector v = false → P v (.trap v)) (v : Byte) : P v (decodeTrap v) := by
  cases hv : validVector v with
  | false => exact (decodeTrap_invalid hv).symm ▸ hinvalid v hv
  | true =>
    obtain rfl | rfl | rfl | rfl | rfl | rfl | rfl | rfl := validVector_cases hv
    · exact hgetc
    · exact hout
    · exact hputs
    · exact hin
    · exact hputsp
    · exact hhalt
    · exact hinu16
    · exact houtu16

theorem exec_decodeTrap (v : Byte) (s : State) : exec (decodeTrap v) s = exec (.trap v) s :=
  forall_vector (P := fun v i => exec i s = exec (.trap v) s) rfl rfl rfl rfl rfl rfl rfl rfl (fun _ _ => rfl) v

theorem results_decodeTrap (v : Byte) (r : RegIdx) : Results (decodeTrap v) r ↔ Results (.trap v) r := by
  refine forall_vector (P := fun v i => Results i r ↔ Results (.trap v) r) ?_ ?_ ?_ ?_ ?_ ?_ ?_ ?_ (fun _ _ => .rfl) v
  all_goals simp [Results, ReadVector]

theorem decodeTrap_ne_br (v : Byte) (n z p : Bool) (off9 : BitVec 9) : decodeTrap v ≠ .br n z p off9 :=
  forall_vector (P := fun _ i => i ≠ .br n z p off9) nofun nofun nofun nofun nofun nofun nofun nofun (fun _ _ => nofun) v

/-- The generic row of a well-formed instruction has no valid vector. -/
theorem vect_invalid_of_wf {v : Byte} (hwf : (Instr.trap v).wf = true) : ¬ (0x20 ≤ v.toNat ∧ v.toNat ≤ 0x27) := by
  simpa [Instr.wf, ← validVector_iff] using hwf

/-- A well-formed generic TRAP reads no value into R0. -/
theorem not_results_of_wf {v : Byte} (hwf : (Instr.trap v).wf = true) (r : RegIdx) : ¬ Results (.trap v) r := by
  rintro ⟨-, rfl | rfl | rfl⟩
  all_goals cases hwf

/-- A rule over all instructions, from the well-formed ones and the step from a vector's own row to the generic row. -/
theorem forall_instr {P : Instr → Prop} (hwf : ∀ i : Instr, i.wf = true → P i)
    (htrap : ∀ v, P (decodeTrap v) → P (.trap v)) (i : Instr) : P i := by
  cases i with
  | trap v => exact htrap v (hwf _ (decodeTrap_wf v))
  | _ => exact hwf _ rfl

/-- Settles O40: the generic row with a vector is the row of the vector. -/
theorem trapDispatchesByVector : Obligations.TrapDispatchesByVector := by
  unfold Obligations.TrapDispatchesByVector
  intro s
  have hrow (v : Byte) : exec (.trap v) s = exec (decodeTrap v) s := (exec_decodeTrap v s).symm
  exact ⟨hrow 0x20#8, hrow 0x21#8, hrow 0x22#8, hrow 0x23#8, hrow 0x24#8, hrow 0x25#8, hrow 0x26#8, hrow 0x27#8⟩

end Sys2Proof.Machine
end

section
/-! PROOFS. What an instruction may change (10_state.md R22, R24, R28 to R30; 20_memory.md R66): its frame has no part but those
the rules list for it, whatever the instruction and the state. -/

namespace Sys2Proof.Machine

open Sys2Proof.Spec Sys2Proof.Spec.Part

/-- The parts of the state that the rules let the instruction i write in the state s. -/
def MayWrite (i : Instr) (s : State) : Part → Prop
  | .reg r => Results i r ∨ (r = 7#3 ∧ linksR7 i s.params)
  | .pc => (∃ n z p off9, i = .br n z p off9) ∨ (∃ b, i = .jmp b) ∨ (∃ o, i = .jsr o) ∨ ∃ b, i = .jsrr b
  | .flags => ∃ r, Results i r
  | .cell a => a = 0xFE00#16 ∨ a = 0xFE02#16 ∨ ∃ v, storeOf i s = some (a, v)
  | .runState => i = .trapHalt ∨ i = .trap 0x25#8 ∨ ∃ v, storeOf i s = some (0xFFFE#16, v) ∧ v.toNat < 0x8000
  | .input | .history => True

/-- From s to t at most those parts change. -/
def Framed (i : Instr) (s t : State) : Prop := ∃ parts, SameBut parts s t ∧ ∀ p ∈ parts, MayWrite i s p

/-! ### The frames of the stores and of the routines -/

/-- What one MemWrite changes, by the address map of R59. -/
def storeParts (a v : Word) : List Part :=
  if a = 0xFE06#16 then [history]
  else if a = 0xFFFE#16 then (if 0x8000 ≤ v.toNat then [] else [runState])
  else if a.toNat ≤ 0x2FFF then [history]
  else [cell a]

theorem sameBut_memWrite (s : State) (a v : Word) : SameBut (storeParts a v) s (s.memWrite a v) := by
  have h := stored_memWrite s a v
  unfold Stored at h
  unfold storeParts
  split_ifs at h ⊢
  case pos => exact h.1 -- DDR
  case pos => exact h -- MCR, bit 15 set
  case neg => exact h.1 -- MCR, bit 15 clear
  case pos => exact h.1 -- the protected region
  case neg => exact h.1 -- every other address

theorem mayWrite_of_mem_storeParts {i : Instr} {s : State} {a v : Word} (hstore : storeOf i s = some (a, v)) {p : Part}
    (hp : p ∈ storeParts a v) : MayWrite i s p := by
  unfold storeParts at hp
  split_ifs at hp with hddr hmcr hv hprot
  case pos =>
    obtain rfl : p = history := by simpa using hp
    trivial
  case pos => simp at hp
  case neg =>
    obtain rfl : p = runState := by simpa using hp
    exact .inr (.inr ⟨v, hmcr ▸ hstore, by omega⟩)
  case pos =>
    obtain rfl : p = history := by simpa using hp
    trivial
  case neg =>
    obtain rfl : p = cell a := by simpa using hp
    exact .inr (.inr ⟨v, hstore⟩)

/-- A read changes only what a keyboard poll may, and every instruction may poll. -/
theorem mayWrite_of_mem_poll {i : Instr} {s : State} {p : Part}
    (hp : p ∈ [cell Config.kbsr, cell Config.kbdr, input, history]) : MayWrite i s p := by
  simp only [List.mem_cons, List.not_mem_nil, or_false] at hp
  obtain rfl | rfl | rfl | rfl := hp
  · exact .inl rfl
  · exact .inr (.inl rfl)
  · trivial
  · trivial

theorem Framed.of_writeResult {i : Instr} (s : State) {r : RegIdx} (v : Word) (hr : Results i r) :
    Framed i s (s.writeResult r v) := by
  refine ⟨_, sameBut_writeResult s r v, ?_⟩
  simp only [List.forall_mem_cons]
  exact ⟨.inl hr, ⟨r, hr⟩, by simp⟩

/-- The frame of an instruction whose reads come first. -/
theorem Framed.after_read {i : Instr} {s t : State} {a : Word} {parts : List Part}
    (hframe : SameBut parts (s.memRead a).2 t) (hparts : ∀ p ∈ parts, MayWrite i s p) : Framed i s t :=
  ⟨_, sameBut_append (sameBut_afterRead s a) hframe,
    fun p hp => (List.mem_append.mp hp).elim mayWrite_of_mem_poll (hparts p)⟩

/-- The frame of a routine after the trap entry, which writes R7 only when it links it. -/
theorem Framed.after_trapEntry {i : Instr} {s t : State} {parts : List Part}
    (hlink : s.params.trapLinksR7 = true → linksR7 i s.params) (hframe : SameBut parts s.trapEntry t)
    (hparts : ∀ p ∈ parts, MayWrite i s p) : Framed i s t := by
  cases hl : s.params.trapLinksR7 with
  | false =>
    have hentry : s.trapEntry = s := if_neg (Bool.eq_false_iff.mp hl)
    exact ⟨parts, hentry ▸ hframe, hparts⟩
  | true =>
    refine ⟨_, sameBut_append (sameBut_trapEntry s) hframe, fun p hp => ?_⟩
    obtain hp | hp := List.mem_append.mp hp
    · obtain rfl : p = reg 7#3 := by simpa using hp
      exact .inr ⟨rfl, hlink hl⟩
    · exact hparts p hp

theorem sameBut_takeMany (s : State) (k : Nat) : SameBut [input, history] s (s.takeMany k) := by
  induction k generalizing s with
  | zero => exact sameBut_mono (sameBut_refl s) (by simp)
  | succ k ih =>
    cases hin : s.input with
    | nil =>
      simp only [State.takeMany, s.takeChar_none_iff.mpr hin]
      exact sameBut_mono (sameBut_refl s) (by simp)
    | cons c rest =>
      simp only [State.takeMany, s.takeChar_cons hin]
      exact sameBut_trans (sameBut_take s c.char rest) (ih _)

/-- The frame of a string routine. -/
theorem Framed.of_printString {i : Instr} {bytes : Word → List Byte} {send : Word → State → State} (s : State)
    (hlink : s.params.trapLinksR7 = true → linksR7 i s.params) (hsend : ∀ w s, send w s = s.outPutAll (bytes w)) :
    Framed i s (printString send (s.trapEntry.reg 0#3) s.trapEntry) :=
  .after_trapEntry hlink (stringRun_sameBut (stringRun_printString hsend _ _)) fun _ => mayWrite_of_mem_poll

/-- The frame of a routine that reads a value into R0. -/
theorem Framed.of_read_routine {i : Instr} {s u : State} (v : Word) (hresult : Results i 0#3)
    (hlink : s.params.trapLinksR7 = true → linksR7 i s.params) (hread : SameBut [input, history] s.trapEntry u) :
    Framed i s (u.writeResult 0#3 v) := by
  refine .after_trapEntry hlink (sameBut_append hread (sameBut_writeResult u 0#3 v)) ?_
  simp only [List.cons_append, List.nil_append, List.forall_mem_cons]
  exact ⟨trivial, trivial, .inl hresult, ⟨0#3, hresult⟩, by simp⟩

/-! ### The frame of every instruction -/

theorem framed_of_wf {i : Instr} (hwf : i.wf = true) {s t : State} (h : exec i s = .next t) : Framed i s t := by
  cases i with
  | br n z p off9 =>
    cases (exec_br n z p off9 s).symm.trans h
    exact ⟨_, sameBut_setPc s _, by simp [MayWrite]⟩
  | addReg | addImm | andReg | andImm | notReg | lea =>
    cases h
    exact .of_writeResult s _ rfl
  | ld | ldr =>
    cases h
    refine .after_read (sameBut_writeResult _ _ _) ?_
    simp [MayWrite, Results]
  | ldi dr off9 =>
    cases (exec_ldi dr off9 s).symm.trans h
    refine .after_read (sameBut_append (sameBut_afterRead _ _) (sameBut_writeResult _ dr _)) ?_
    simp [MayWrite, Results, Config.kbsr, Config.kbdr]
  | st sr off9 =>
    cases h
    exact ⟨_, sameBut_memWrite s _ _, fun _ => mayWrite_of_mem_storeParts rfl⟩
  | sti sr off9 =>
    cases (exec_sti sr off9 s).symm.trans h
    exact .after_read (sameBut_memWrite _ _ _) fun _ => mayWrite_of_mem_storeParts rfl
  | str sr base off6 =>
    cases h
    exact ⟨_, sameBut_memWrite s _ _, fun _ => mayWrite_of_mem_storeParts rfl⟩
  | jmp base =>
    cases h
    exact ⟨_, sameBut_setPc s _, by simp [MayWrite]⟩
  | jsr off11 =>
    cases h
    exact ⟨_, (link_setPc_result s _).2.2, by simp [MayWrite, linksR7]⟩
  | jsrr base =>
    cases (exec_jsrr base s).symm.trans h
    exact ⟨_, (link_setPc_result s _).2.2, by simp [MayWrite, linksR7]⟩
  | rti | res =>
    cases h
    exact ⟨_, sameBut_emit s _, by simp [MayWrite]⟩
  | trap vect =>
    cases (exec_trap_invalid (vect_invalid_of_wf hwf) s).symm.trans h
    exact ⟨_, sameBut_emit s _, by simp [MayWrite]⟩
  | trapGetc =>
    obtain ⟨c, rest, -, rfl⟩ := State.waitChar_next h
    exact .of_read_routine _ rfl id (sameBut_take _ _ _)
  | trapIn =>
    obtain ⟨c, rest, -, rfl⟩ := State.waitChar_next h
    refine .of_read_routine _ rfl id ?_
    exact sameBut_trans (sameBut_mono (sameBut_outPutAll _ _) (by simp))
      (sameBut_trans (sameBut_take _ c.char rest) (sameBut_mono (sameBut_emit _ _) (by simp)))
  | trapInu16 =>
    obtain ⟨v, k, -, rfl⟩ := routineInu16_next h
    exact .of_read_routine v rfl id (sameBut_takeMany _ k)
  | trapOut =>
    cases h
    exact .after_trapEntry id (sameBut_emit _ _) (by simp [MayWrite])
  | trapOutu16 =>
    cases h
    exact .after_trapEntry id (sameBut_outPutAll _ _) (by simp [MayWrite])
  | trapPuts =>
    cases h
    exact .of_printString s id sendWord_eq_outPutAll
  | trapPutsp =>
    cases h
    exact .of_printString s id sendPacked_eq_outPutAll
  | trapHalt =>
    cases h
    exact .after_trapEntry id (sameBut_append (sameBut_outPutAll _ _) (sameBut_stopWith _ .halt)) (by simp [MayWrite])

/-- The generic TRAP row may write what the row of its vector may. -/
theorem mayWrite_of_decodeTrap {v : Byte} {s : State} {p : Part} (h : MayWrite (decodeTrap v) s p) :
    MayWrite (.trap v) s p := by
  revert h
  refine forall_vector (P := fun v i => MayWrite i s p → MayWrite (.trap v) s p) ?_ ?_ ?_ ?_ ?_ ?_ ?_ ?_ (fun _ _ => id) v
  all_goals cases p <;> simp [MayWrite, Results, ReadVector, linksR7, storeOf]

theorem framed_of_exec {i : Instr} {s t : State} (h : exec i s = .next t) : Framed i s t := by
  revert h
  refine forall_instr (P := fun i => exec i s = .next t → Framed i s t) (fun i hwf => framed_of_wf hwf) (fun v ih h => ?_) i
  obtain ⟨parts, hframe, hparts⟩ := ih ((exec_decodeTrap v s).trans h)
  exact ⟨parts, hframe, fun p hp => mayWrite_of_decodeTrap (hparts p hp)⟩

/-! ### The flags of a result -/

theorem flagRule_of_wf {i : Instr} (hwf : i.wf = true) {s t : State} (h : exec i s = .next t) {r : RegIdx}
    (hr : Results i r) : FlagRule (t.reg r) t.cond := by
  cases i with
  | addReg | addImm | andReg | andImm | notReg | lea | ld | ldi | ldr =>
    cases hr
    cases h
    exact flagRule_writeResult _ _ _
  | trapGetc | trapIn =>
    obtain ⟨c, rest, -, rfl⟩ := State.waitChar_next h
    cases hr
    exact flagRule_writeResult _ _ _
  | trapInu16 =>
    obtain ⟨v, k, -, rfl⟩ := routineInu16_next h
    cases hr
    exact flagRule_writeResult _ _ _
  | trap vect => exact absurd hr (not_results_of_wf hwf r)
  | _ => exact hr.elim

theorem flagRule_of_exec {i : Instr} {s t : State} (h : exec i s = .next t) {r : RegIdx} (hr : Results i r) :
    FlagRule (t.reg r) t.cond := by
  revert h hr
  exact forall_instr (P := fun i => exec i s = .next t → Results i r → FlagRule (t.reg r) t.cond)
    (fun i hwf h hr => flagRule_of_wf hwf h hr)
    (fun v ih h hr => ih ((exec_decodeTrap v s).trans h) ((results_decodeTrap v r).mpr hr)) i

/-! ### The run state -/

theorem ExecEffect.run_cause {s t : State} (he : ExecEffect s t) :
    (t.run = s.run ∧ t.cause = s.cause) ∨ (t.run = .halted ∧ t.cause = .halt) := by
  cases he with
  | setReg | setPc | setCond | outPut | report | take | store => exact .inl ⟨rfl, rfl⟩
  | poll => exact .inl ⟨s.kbsrPoll_run, s.kbsrPoll_cause⟩
  | halt => exact .inr ⟨rfl, rfl⟩

/-- An instruction leaves the run state or halts: of its effects only one writes it. -/
theorem exec_run_cause {i : Instr} {s t : State} (h : exec i s = .next t) :
    (t.run = s.run ∧ t.cause = s.cause) ∨ (t.run = .halted ∧ t.cause = .halt) := by
  have heffects := exec_effects h
  clear h
  induction heffects with
  | refl => exact .inl ⟨rfl, rfl⟩
  | tail _ he ih =>
    obtain ⟨hrun, hcause⟩ | hhalt := he.run_cause
    · rw [hrun, hcause]
      exact ih
    · exact .inr hhalt

/-! ### The diagnostics -/

@[simp] theorem diagLog_emit (s : State) (e : Event) : (s.emit e).diagLog = s.diagLog ++ e.diag?.toList := by
  cases h : e.diag? <;> simp [State.diagLog, h]

@[simp] theorem diagLog_setInput (s : State) (cs : List InChar) : (s.setInput cs).diagLog = s.diagLog := rfl

theorem diagLog_take (s : State) (rest : List InChar) (c : Byte) :
    ((s.setInput rest).emit (.inTake c)).diagLog = s.diagLog := by
  simp [Event.diag?]

@[simp] theorem diagLog_kbsrPoll (s : State) : s.kbsrPoll.diagLog = s.diagLog := by
  unfold State.kbsrPoll
  split
  · rfl
  · exact diagLog_take s _ _
  · rfl

@[simp] theorem diagLog_afterRead (s : State) (a : Word) : (s.afterRead a).diagLog = s.diagLog := by
  unfold State.afterRead
  split
  · exact diagLog_kbsrPoll s
  · rfl

@[simp] theorem diagLog_writeResult (s : State) (r : RegIdx) (v : Word) : (s.writeResult r v).diagLog = s.diagLog := rfl

@[simp] theorem diagLog_loadInto (s : State) (r : RegIdx) (a : Word) : (s.loadInto r a).diagLog = s.diagLog :=
  diagLog_afterRead s a

@[simp] theorem diagLog_stopWith (s : State) (c : StopCause) : (s.stopWith c).diagLog = s.diagLog := rfl

@[simp] theorem diagLog_trapEntry (s : State) : s.trapEntry.diagLog = s.diagLog :=
  congrArg (List.filterMap Event.diag?) s.trapEntry_history

@[simp] theorem diagLog_outPutAll (s : State) (cs : List Byte) : (s.outPutAll cs).diagLog = s.diagLog := by
  simp [State.diagLog, List.filterMap_map, Function.comp_def, Event.diag?]

@[simp] theorem diagLog_takeMany (s : State) (k : Nat) : (s.takeMany k).diagLog = s.diagLog :=
  takeMany_preserves State.diagLog diagLog_take k s

theorem diagLog_printString {bytes : Word → List Byte} {send : Word → State → State}
    (hsend : ∀ w s, send w s = s.outPutAll (bytes w)) (a : Word) (s : State) :
    (printString send a s).diagLog = s.diagLog :=
  stringLoop_preserves State.diagLog (fun w s => by rw [hsend, diagLog_outPutAll]) diagLog_kbsrPoll _ a s

/-- At most one diagnostic event from s to t. -/
def AtMostOneDiag (s t : State) : Prop := t.diagLog = s.diagLog ∨ ∃ d, t.diagLog = s.diagLog ++ [d]

theorem AtMostOneDiag.of_report (s : State) (d : Diag) : AtMostOneDiag s (s.emit (.diag d)) :=
  .inr ⟨d, diagLog_emit s (.diag d)⟩

/-- Of the cases of R59 only the write to the protected region reports. -/
theorem AtMostOneDiag.of_memWrite (s : State) (a v : Word) : AtMostOneDiag s (s.memWrite a v) := by
  obtain ⟨-, h⟩ | ⟨-, -, h⟩ | ⟨-, -, h⟩ | ⟨-, h⟩ | ⟨-, -, -, h⟩ := s.memWrite_cases a v
  all_goals rw [h]
  · exact .inl ((diagLog_emit s _).trans (List.append_nil _))
  · exact .inl rfl
  · exact .inl rfl
  · exact .of_report s _
  · exact .inl rfl

theorem atMostOneDiag_of_wf {i : Instr} (hwf : i.wf = true) {s t : State} (h : exec i s = .next t) :
    AtMostOneDiag s t := by
  cases i with
  | br n z p off9 =>
    cases (exec_br n z p off9 s).symm.trans h
    exact .inl rfl
  | jsrr base =>
    cases (exec_jsrr base s).symm.trans h
    exact .inl rfl
  | addReg | addImm | andReg | andImm | notReg | lea | jmp | jsr =>
    cases h
    exact .inl rfl
  | ld | ldr =>
    cases h
    exact .inl (diagLog_loadInto s _ _)
  | ldi dr off9 =>
    cases (exec_ldi dr off9 s).symm.trans h
    exact .inl (by simp)
  | st | str =>
    cases h
    exact .of_memWrite s _ _
  | sti sr off9 =>
    cases h
    rw [AtMostOneDiag, ← diagLog_afterRead s (s.eaPcRel off9)]
    exact AtMostOneDiag.of_memWrite _ _ _
  | rti | res =>
    cases h
    exact .of_report s _
  | trap vect =>
    cases (exec_trap_invalid (vect_invalid_of_wf hwf) s).symm.trans h
    exact .of_report s _
  | trapGetc | trapIn =>
    obtain ⟨c, rest, -, rfl⟩ := State.waitChar_next h
    exact .inl (by simp [Event.diag?])
  | trapInu16 =>
    obtain ⟨v, k, -, rfl⟩ := routineInu16_next h
    exact .inl (by simp)
  | trapOut =>
    cases h
    exact .inl (by simp [routineOut, Event.diag?])
  | trapPuts =>
    cases h
    exact .inl ((diagLog_printString sendWord_eq_outPutAll _ _).trans (diagLog_trapEntry s))
  | trapPutsp =>
    cases h
    exact .inl ((diagLog_printString sendPacked_eq_outPutAll _ _).trans (diagLog_trapEntry s))
  | trapHalt =>
    cases h
    exact .inl (by simp [routineHalt])
  | trapOutu16 =>
    cases h
    exact .inl (by simp [routineOutu16])

/-! ### The obligations -/

/-- Settles O48: a register that the rules do not list is outside every instruction's frame. -/
theorem registersWrittenOnlyAsListed : Obligations.RegistersWrittenOnlyAsListed := by
  unfold Obligations.RegistersWrittenOnlyAsListed
  intro i s t h r hresult hlink
  obtain ⟨parts, ⟨hreg, -⟩, hparts⟩ := framed_of_exec h
  exact hreg r fun hp => (hparts _ hp).elim hresult hlink

/-- Settles O49: the flags follow every result, and are outside the frame of an instruction without one. -/
theorem flagsWrittenOnlyAsListed : Obligations.FlagsWrittenOnlyAsListed := by
  unfold Obligations.FlagsWrittenOnlyAsListed
  intro i s t h
  refine ⟨fun r hr => flagRule_of_exec h hr, fun hnone => ?_⟩
  obtain ⟨parts, ⟨-, -, hflags, -⟩, hparts⟩ := framed_of_exec h
  exact hflags fun hp => (hparts _ hp).elim hnone

/-- Settles O51: the pc is in the frame of the control transfers only. -/
theorem pcWrittenOnlyByControlTransfers : Obligations.PcWrittenOnlyByControlTransfers := by
  unfold Obligations.PcWrittenOnlyByControlTransfers
  intro i s t hbr hjmp hjsr hjsrr h
  obtain ⟨parts, ⟨-, hpc, -⟩, hparts⟩ := framed_of_exec h
  refine hpc fun hp => ?_
  obtain ⟨n, z, p, off9, hi⟩ | ⟨b, hi⟩ | ⟨o, hi⟩ | ⟨b, hi⟩ := hparts _ hp
  · exact hbr n z p off9 hi
  · exact hjmp b hi
  · exact hjsr o hi
  · exact hjsrr b hi

/-- Settles O52: an instruction can only halt, and only those listed have the run state in their frame. -/
theorem runStateWrittenOnlyAsListed : Obligations.RunStateWrittenOnlyAsListed := by
  unfold Obligations.RunStateWrittenOnlyAsListed
  intro i s t h
  obtain hsame | ⟨hrun, hcause⟩ := exec_run_cause h
  · exact .inl hsame
  obtain ⟨parts, ⟨-, -, -, -, hkept, -⟩, hparts⟩ := framed_of_exec h
  by_cases hp : Part.runState ∈ parts
  · exact .inr ⟨hrun, hcause, hparts _ hp⟩
  · exact .inl (hkept hp)

/-- Settles O53: a cell is in the frame as a keyboard register or as the address stored to. -/
theorem memoryWrittenOnlyAsListed : Obligations.MemoryWrittenOnlyAsListed := by
  unfold Obligations.MemoryWrittenOnlyAsListed
  intro i s t h a hkbsr hkbdr hstore
  obtain ⟨parts, ⟨-, -, -, hcell, -⟩, hparts⟩ := framed_of_exec h
  refine hcell a fun hp => ?_
  obtain hk | hk | ⟨v, hv⟩ := hparts _ hp
  · exact hkbsr hk
  · exact hkbdr hk
  · exact hstore v hv

/-- Settles O54: only the stores, RTI, RES and a bad vector report, and each of them once. -/
theorem atMostOneDiagnostic : Obligations.AtMostOneDiagnostic := by
  unfold Obligations.AtMostOneDiagnostic
  intro i s t h
  revert h
  exact forall_instr (P := fun i => exec i s = .next t → AtMostOneDiag s t) (fun i hwf => atMostOneDiag_of_wf hwf)
    (fun v ih h => ih ((exec_decodeTrap v s).trans h)) i

end Sys2Proof.Machine
end

section
/-! PROOFS. Decimal input and output (43_trap_and_reserved.md R158, R159): the digit loops of the model against the number that a
string of digits writes. -/

namespace Sys2Proof.Machine

open Sys2Proof.Spec

/-! ### Blanks and digits -/

theorem isBlank_iff (c : Byte) : isBlank c = true ↔ Blank c := by
  simp [isBlank, Blank, or_assoc]

theorem isDigit_iff (c : Byte) : isDigit c = true ↔ Digit c := by
  simp [isDigit, Digit, BitVec.le_def]

theorem isDigit_eq_false {c : Byte} (h : ¬ Digit c) : isDigit c = false :=
  Bool.eq_false_iff.mpr fun hc => h ((isDigit_iff c).mp hc)

theorem isBlank_eq_false {c : Byte} (h : ¬ Blank c) : isBlank c = false :=
  Bool.eq_false_iff.mpr fun hc => h ((isBlank_iff c).mp hc)

theorem not_blank_of_digit {c : Byte} (h : Digit c) : ¬ Blank c := by
  rintro (rfl | rfl | rfl | rfl)
  all_goals simp [Digit] at h

/-! ### DEC_IN: blanks, digits, the first non-digit -/

/-- The value of a digit in the number that the digits so far write. -/
def pushDigit (n : Nat) (c : Byte) : Nat := n * 10 + (c.toNat - 0x30)

theorem decimal_eq_foldl (ds : List Byte) : decimal ds = ds.foldl pushDigit 0 := rfl

/-- R158: the word of the digits so far is the number they write, modulo 2^16. -/
theorem toNat_addDigit {v : Word} {n : Nat} {c : Byte} (hv : v.toNat = n % 0x10000) (hc : Digit c) :
    (addDigit v c).toNat = pushDigit n c % 0x10000 := by
  obtain ⟨hlow, hhigh⟩ := hc
  have hz := toNat_zextByte c
  have hsub : (zextByte c - 0x30#16).toNat = c.toNat - 0x30 := by bv_omega
  rw [addDigit, BitVec.toNat_add, BitVec.toNat_mul, hsub, hv, pushDigit]
  simp only [BitVec.toNat_ofNat]
  omega

/-- Digits are read off one by one, whatever follows them. -/
theorem readDigits_digits {digits : List Byte} (hdigits : ∀ c ∈ digits, Digit c) (tail : List Byte) (v : Word) :
    readDigits v (digits ++ tail) =
      (readDigits (digits.foldl addDigit v) tail).map (fun r => (r.1, r.2 + digits.length)) := by
  induction digits generalizing v with
  | nil => simp
  | cons d ds ih =>
    obtain ⟨hd, hds⟩ := List.forall_mem_cons.mp hdigits
    simp only [List.cons_append, readDigits, (isDigit_iff d).mpr hd, if_true, ih hds, List.foldl_cons, Option.map_map,
      Function.comp_def, List.length_cons, Nat.add_assoc]

/-- Blanks are skipped, whatever follows them. -/
theorem decIn_blanks {blanks : List Byte} (hblanks : ∀ c ∈ blanks, Blank c) (tail : List Byte) :
    decIn (blanks ++ tail) = (decIn tail).map (fun r => (r.1, r.2 + blanks.length)) := by
  induction blanks with
  | nil => simp
  | cons b bs ih =>
    obtain ⟨hb, hbs⟩ := List.forall_mem_cons.mp hblanks
    simp only [List.cons_append, decIn, (isBlank_iff b).mpr hb, if_true, ih hbs, Option.map_map, Function.comp_def,
      List.length_cons, Nat.add_assoc]

theorem decIn_of_not_blank {c : Byte} (hc : ¬ Blank c) (cs : List Byte) :
    decIn (c :: cs) = readDigits 0x0000#16 (c :: cs) := by
  rw [decIn, isBlank_eq_false hc]
  rfl

/-- The value that DEC_IN answers is the number the digits write, modulo 2^16. -/
theorem toNat_foldl_addDigit {digits : List Byte} (hdigits : ∀ c ∈ digits, Digit c) {v : Word} {n : Nat}
    (hv : v.toNat = n % 0x10000) : (digits.foldl addDigit v).toNat = digits.foldl pushDigit n % 0x10000 := by
  induction digits generalizing v n with
  | nil => exact hv
  | cons d ds ih =>
    obtain ⟨hd, hds⟩ := List.forall_mem_cons.mp hdigits
    exact ih hds (toNat_addDigit hv hd)

/-- DEC_IN on digits and what follows: it reads digits from the first character on. -/
theorem decIn_digits {digits : List Byte} (hdigits : ∀ c ∈ digits, Digit c) {c : Byte} {tail : List Byte}
    (hc : digits = [] → ¬ Blank c) :
    decIn (digits ++ c :: tail) = readDigits 0x0000#16 (digits ++ c :: tail) := by
  cases digits with
  | nil => exact decIn_of_not_blank (hc rfl) tail
  | cons d ds => exact decIn_of_not_blank (not_blank_of_digit (hdigits d (by simp))) _

/-- R158: DEC_IN answers the number of the digits and takes everything up to the first non-digit. -/
theorem decIn_number {blanks digits : List Byte} {last : Byte} (hblanks : ∀ c ∈ blanks, Blank c)
    (hdigits : ∀ c ∈ digits, Digit c) (hlast : ¬ Digit last) (hempty : digits = [] → ¬ Blank last) (tail : List Byte) :
    decIn (blanks ++ digits ++ [last] ++ tail) =
      some (digits.foldl addDigit 0x0000#16, (blanks ++ digits ++ [last]).length) := by
  have hread : readDigits (digits.foldl addDigit 0x0000#16) (last :: tail) =
      some (digits.foldl addDigit 0x0000#16, 1) := by
    rw [readDigits, isDigit_eq_false hlast]
    rfl
  simp only [List.append_assoc, List.cons_append, List.nil_append]
  rw [decIn_blanks hblanks, decIn_digits hdigits hempty, readDigits_digits hdigits, hread]
  simp only [Option.map_some, List.length_append, List.length_singleton]
  simp only [Nat.add_comm, Nat.add_left_comm]

/-- R158, I8: on blanks and digits only, DEC_IN waits for more. -/
theorem decIn_unfinished {blanks digits : List Byte} (hblanks : ∀ c ∈ blanks, Blank c) (hdigits : ∀ c ∈ digits, Digit c) :
    decIn (blanks ++ digits) = none := by
  rw [decIn_blanks hblanks]
  cases digits with
  | nil => rfl
  | cons d ds =>
    rw [decIn_of_not_blank (not_blank_of_digit (hdigits d (by simp)))]
    simpa [readDigits] using congrArg (Option.map fun r : Word × Nat => (r.1, r.2 + blanks.length))
      (readDigits_digits hdigits [] 0x0000#16)

/-! ### DEC_OUT: the digits of a number -/

theorem decimal_concat (ds : List Byte) (c : Byte) : decimal (ds ++ [c]) = decimal ds * 10 + (c.toNat - 0x30) := by
  rw [decimal, List.foldl_append]
  rfl

/-- The character of a digit. -/
theorem toNat_digitChar {d : Nat} (h : d < 10) : (BitVec.ofNat 8 (0x30 + d)).toNat = 0x30 + d := by
  rw [BitVec.toNat_ofNat]
  omega

/-- R159: with fuel for its digits, the digits printed for n write n. -/
theorem decimal_decDigits {fuel n : Nat} (h : n < 10 ^ fuel) : decimal (decDigits fuel n) = n := by
  induction fuel generalizing n with
  | zero =>
    obtain rfl : n = 0 := by simpa using h
    rfl
  | succ fuel ih =>
    unfold decDigits
    split
    · next hn =>
      rw [← List.nil_append [_], decimal_concat, toNat_digitChar hn]
      simp [decimal]
    · rw [decimal_concat, ih (by omega), toNat_digitChar (by omega)]
      omega

theorem digit_of_mem_decDigits {fuel n : Nat} {c : Byte} (h : c ∈ decDigits fuel n) : Digit c := by
  induction fuel generalizing n with
  | zero => simp [decDigits] at h
  | succ fuel ih =>
    have hdigit {d : Nat} (hd : d < 10) : Digit (BitVec.ofNat 8 (0x30 + d)) := by
      rw [Digit, toNat_digitChar hd]
      omega
    unfold decDigits at h
    split at h
    · next hn => exact List.mem_singleton.mp h ▸ hdigit hn
    · obtain h | h := List.mem_append.mp h
      · exact ih h
      · exact List.mem_singleton.mp h ▸ hdigit (by omega)

/-- R159: the digits of a positive number begin with one that is not 0. -/
theorem decDigits_eq_cons {fuel n : Nat} (hpos : 0 < n) (h : n < 10 ^ fuel) :
    ∃ d ds, decDigits fuel n = d :: ds ∧ d ≠ 0x30#8 := by
  induction fuel generalizing n with
  | zero => exact absurd h (by simpa using hpos.ne')
  | succ fuel ih =>
    unfold decDigits
    split
    · next hn =>
      refine ⟨_, [], rfl, fun hzero => ?_⟩
      have hchar := toNat_digitChar hn
      rw [hzero, BitVec.toNat_ofNat] at hchar
      omega
    · obtain ⟨d, ds, heq, hd⟩ := ih (n := n / 10) (by omega) (by omega)
      exact ⟨d, ds ++ [BitVec.ofNat 8 (0x30 + n % 10)], by rw [heq, List.cons_append], hd⟩

/-- R159: what DEC_OUT prints for a word. -/
theorem decOut_result (v : Word) :
    (∀ c ∈ decOut v, Digit c) ∧ decimal (decOut v) = v.toNat ∧ decOut v ≠ [] ∧
      ((decOut v).head? = some 0x30#8 → decOut v = [0x30#8]) := by
  have hfive : v.toNat < 10 ^ 5 := v.isLt.trans (by decide)
  refine ⟨fun c hc => digit_of_mem_decDigits hc, decimal_decDigits hfive, ?_⟩
  by_cases hzero : v = 0x0000#16
  · subst hzero
    exact ⟨by decide, fun _ => by decide⟩
  · have hpos : 0 < v.toNat := Nat.pos_of_ne_zero fun h => hzero (BitVec.eq_of_toNat_eq h)
    obtain ⟨d, ds, heq, hd⟩ := decDigits_eq_cons hpos hfive
    rw [decOut, heq]
    exact ⟨List.cons_ne_nil d ds, fun h => absurd (Option.some.inj h) hd⟩

/-! ### The meaning of INU16 and OUTU16 -/

theorem exec_trapOutu16 (s : State) :
    exec .trapOutu16 s = .next (s.trapEntry.outPutAll (decOut (s.reg 0#3))) := by
  rw [← s.trapEntry_reg0]
  rfl

theorem exec_trapInu16 {s : State} {v : Word} {k : Nat} (h : decIn (s.input.map InChar.char) = some (v, k)) :
    exec .trapInu16 s = .next ((s.trapEntry.takeMany k).writeResult 0#3 v) := by
  change routineInu16 decIn s.trapEntry = _
  rw [routineInu16, s.trapEntry_input, h]

/-- Characters taken one by one leave the input and are reported, in order. -/
theorem takeMany_input_history {s : State} {cs rest : List InChar} (h : s.input = cs ++ rest) :
    (s.takeMany cs.length).input = rest ∧
      (s.takeMany cs.length).history = s.history ++ cs.map (fun c => .inTake c.char) := by
  rw [s.takeMany_append cs rest h]
  exact ⟨rfl, rfl⟩

/-- Settles O37: DEC_IN answers the number and the characters up to the first non-digit, which are taken. -/
theorem inu16Result : Obligations.Inu16Result := by
  unfold Obligations.Inu16Result
  refine ⟨row_trap_routine (by decide) (by decide) rfl,
    fun s cs rest blanks digits last hin hchars hblanks hdigits hlast hempty => ?_⟩
  have hparse : decIn (s.input.map InChar.char) = some (digits.foldl addDigit 0x0000#16, cs.length) := by
    rw [hin, List.map_append, hchars, decIn_number hblanks hdigits hlast hempty, ← hchars, List.length_map]
  obtain ⟨hrest, htaken⟩ := takeMany_input_history (s.trapEntry_input.trans hin)
  obtain ⟨hlink, hframe⟩ := linkedR7_and_sameBut (sameBut_append (sameBut_takeMany s.trapEntry cs.length)
    (sameBut_writeResult _ 0#3 (digits.foldl addDigit 0x0000#16))) (by simp)
  refine ⟨_, exec_trapInu16 hparse, ?_, flagRule_writeResult _ 0#3 _, hrest, ?_, hlink, sameBut_mono hframe (by simp)⟩
  · rw [State.writeResult_reg_same, decimal_eq_foldl]
    exact toNat_foldl_addDigit hdigits rfl
  · rw [State.writeResult_history, htaken, s.trapEntry_history]

/-- Settles O38: DEC_OUT's digits, after the trap entry. -/
theorem outu16Result : Obligations.Outu16Result := by
  unfold Obligations.Outu16Result
  refine ⟨row_trap_routine (by decide) (by decide) rfl, fun s => ⟨_, decOut (s.reg 0#3), exec_trapOutu16 s, ?_, ?_⟩⟩
  · rw [State.outPutAll_history, s.trapEntry_history]
  · obtain ⟨hdigits, hvalue, hne, hlead⟩ := decOut_result (s.reg 0#3)
    exact ⟨hdigits, hvalue, hne, hlead, linkedR7_and_sameBut (sameBut_outPutAll s.trapEntry _) (by simp)⟩

/-! ### Exhausted input (R151, I8) -/

theorem State.waitChar_nil {s : State} (k : Byte → State → State) (h : s.input = []) :
    s.waitChar k = .fault (.inputExhausted s) := by
  simp only [State.waitChar, s.takeChar_none_iff.mpr h]

theorem exec_trapGetc_exhausted {s : State} (h : s.input = []) :
    exec .trapGetc s = .fault (.inputExhausted s.trapEntry) :=
  State.waitChar_nil _ (s.trapEntry_input.trans h)

/-- IN has prompted when it waits. -/
theorem exec_trapIn_exhausted {s : State} (h : s.input = []) :
    exec .trapIn s = .fault (.inputExhausted (s.trapEntry.outPutAll s.params.inPrompt)) := by
  rw [← s.trapEntry_params]
  exact State.waitChar_nil _ (((State.outPutAll_input _ _).trans s.trapEntry_input).trans h)

/-- INU16 has taken every character when it waits for one more. -/
theorem exec_trapInu16_exhausted {s : State} (h : decIn (s.input.map InChar.char) = none) :
    exec .trapInu16 s = .fault (.inputExhausted (s.trapEntry.takeMany s.input.length)) := by
  change routineInu16 decIn s.trapEntry = _
  rw [routineInu16, s.trapEntry_input, h]

/-- Settles O41: each of the three holds in the state that it has reached by its last wait. -/
theorem exhaustedInputHoldsForEver : Obligations.ExhaustedInputHoldsForEver := by
  unfold Obligations.ExhaustedInputHoldsForEver
  refine ⟨fun s hin => ⟨⟨_, exec_trapGetc_exhausted hin, ?_⟩, ⟨_, exec_trapIn_exhausted hin, ?_, ?_⟩⟩,
    fun s blanks digits hchars hblanks hdigits => ?_⟩
  · exact linkedR7_and_sameBut (sameBut_refl s.trapEntry) (by simp)
  · rw [State.outPutAll_history, s.trapEntry_history]
  · exact linkedR7_and_sameBut (sameBut_outPutAll s.trapEntry _) (by simp)
  · have hparse : decIn (s.input.map InChar.char) = none := hchars ▸ decIn_unfinished hblanks hdigits
    obtain ⟨hrest, htaken⟩ :=
      takeMany_input_history (s.trapEntry_input.trans (List.append_nil s.input).symm)
    refine ⟨_, exec_trapInu16_exhausted hparse, hrest, ?_,
      linkedR7_and_sameBut (sameBut_takeMany s.trapEntry s.input.length) (by simp)⟩
    rw [htaken, s.trapEntry_history]

end Sys2Proof.Machine
end

section
/-! PROOFS. Changes of the state that no instruction but BR sees: one that every named operation carries along unread is carried
along by the instruction. The two that the rules name are the flags (10_state.md R28) and the trace (60_exceptions.md R194). -/

namespace Sys2Proof.Machine

open Host (Outcome)
open Sys2Proof.Spec

/-- f changes nothing that an operation reads and commutes with the named updates; a result write turns f into g. -/
structure Unseen (f g : State → State) : Prop where
  reg : ∀ s r, (f s).reg r = s.reg r
  pc : ∀ s, (f s).pc = s.pc
  mem : ∀ s, (f s).mem = s.mem
  ipc : ∀ s, (f s).ipc = s.ipc
  ir : ∀ s, (f s).ir = s.ir
  input : ∀ s, (f s).input = s.input
  kbsrLowBits : ∀ s, (f s).params.kbsrLowBits = s.params.kbsrLowBits
  trapLinksR7 : ∀ s, (f s).params.trapLinksR7 = s.params.trapLinksR7
  jsrrLinkFirst : ∀ s, (f s).params.jsrrLinkFirst = s.params.jsrrLinkFirst
  inPrompt : ∀ s, (f s).params.inPrompt = s.params.inPrompt
  haltBanner : ∀ s, (f s).params.haltBanner = s.params.haltBanner
  setReg : ∀ s r v, (f s).setReg r v = f (s.setReg r v)
  setPc : ∀ s v, (f s).setPc v = f (s.setPc v)
  setMem : ∀ s m, (f s).setMem m = f (s.setMem m)
  setInput : ∀ s cs, (f s).setInput cs = f (s.setInput cs)
  stopWith : ∀ s c, (f s).stopWith c = f (s.stopWith c)
  emit : ∀ s e, e.isTrace = false → (f s).emit e = f (s.emit e)
  writeResult : ∀ s r v, (f s).writeResult r v = g (s.writeResult r v)

namespace Unseen

variable {f g : State → State} (hf : Unseen f g)
include hf

/-! ### The shared operations -/

theorem cell (s : State) (a : Word) : (f s).cell a = s.cell a := by
  rw [State.cell, hf.mem, State.cell]

theorem setCell (s : State) (a v : Word) : (f s).setCell a v = f (s.setCell a v) := by
  rw [State.setCell, hf.mem, hf.setMem, State.setCell]

theorem link (s : State) : (f s).link = f s.link := by
  simp only [State.link_eq, hf.pc, hf.setReg]

theorem trapEntry (s : State) : (f s).trapEntry = f s.trapEntry := by
  rw [State.trapEntry, hf.trapLinksR7, hf.pc, hf.setReg, State.trapEntry]
  exact (apply_ite f _ _ _).symm

theorem outPut (s : State) (c : Byte) : (f s).emit (.outPut c) = f (s.emit (.outPut c)) :=
  hf.emit s _ rfl

theorem report (s : State) (d : Diag) : (f s).emit (.diag d) = f (s.emit (.diag d)) :=
  hf.emit s _ rfl

theorem outPutAll (s : State) (cs : List Byte) : (f s).outPutAll cs = f (s.outPutAll cs) := by
  induction cs generalizing s with
  | nil => rfl
  | cons c cs ih => simp only [State.outPutAll, State.outPut_eq, hf.outPut, ih]

theorem take (s : State) (rest : List InChar) (c : Byte) :
    ((f s).setInput rest).emit (.inTake c) = f ((s.setInput rest).emit (.inTake c)) := by
  rw [hf.setInput, hf.emit _ _ rfl]

theorem kbsrReadyValue (s : State) (old : Word) : kbsrReadyValue (f s).params old = kbsrReadyValue s.params old := by
  simp only [kbsrReadyValue_eq, hf.kbsrLowBits]

theorem kbsrIdleValue (s : State) (old : Word) : kbsrIdleValue (f s).params old = kbsrIdleValue s.params old := by
  simp only [kbsrIdleValue_eq, hf.kbsrLowBits]

theorem kbsrPoll (s : State) : (f s).kbsrPoll = f s.kbsrPoll := by
  unfold State.kbsrPoll
  rw [hf.input]
  split
  · rw [hf.setCell, hf.cell, hf.kbsrIdleValue]
  · simp only [hf.take, hf.setCell, hf.cell, hf.kbsrReadyValue]
  · simp only [hf.setInput, hf.setCell, hf.cell, hf.kbsrIdleValue]

theorem afterRead (s : State) (a : Word) : (f s).afterRead a = f (s.afterRead a) := by
  rw [State.afterRead, hf.kbsrPoll, State.afterRead]
  exact (apply_ite f _ _ _).symm

theorem memRead (s : State) (a : Word) : (f s).memRead a = ((s.memRead a).1, f (s.memRead a).2) := by
  rw [State.memRead, hf.afterRead, hf.cell, State.memRead]

theorem loadInto (s : State) (r : RegIdx) (a : Word) : (f s).loadInto r a = g (s.loadInto r a) := by
  rw [State.loadInto, hf.memRead, hf.writeResult, State.loadInto]

theorem memWrite (s : State) (a v : Word) : (f s).memWrite a v = f (s.memWrite a v) := by
  unfold State.memWrite
  simp only [State.outPut_eq, State.report_eq, State.halt_eq, hf.ipc, hf.outPut, hf.report, hf.stopWith, hf.setCell]
  split_ifs <;> rfl

theorem stringLoop {bytes : Word → List Byte} {send : Word → State → State}
    (hsend : ∀ w s, send w s = s.outPutAll (bytes w)) (fuel : Nat) (a : Word) (s : State) :
    stringLoop send fuel a (f s) = f (stringLoop send fuel a s) := by
  induction fuel generalizing a s with
  | zero => rfl
  | succ fuel ih =>
    simp only [Machine.stringLoop, hsend, hf.memRead, hf.outPutAll, ih]
    split_ifs <;> rfl

theorem takeMany (s : State) (k : Nat) : (f s).takeMany k = f (s.takeMany k) := by
  induction k generalizing s with
  | zero => rfl
  | succ k ih =>
    cases hin : s.input with
    | nil =>
      simp only [State.takeMany, s.takeChar_none_iff.mpr hin, (f s).takeChar_none_iff.mpr ((hf.input s).trans hin)]
    | cons c rest =>
      simp only [State.takeMany, s.takeChar_cons hin, (f s).takeChar_cons ((hf.input s).trans hin), hf.take, ih]

theorem printString {bytes : Word → List Byte} {send : Word → State → State}
    (hsend : ∀ w s, send w s = s.outPutAll (bytes w)) (a : Word) (s : State) :
    printString send a (f s) = f (printString send a s) :=
  hf.stringLoop hsend (wordsToTop a) a s

end Unseen

/-! ### The instructions -/

/-- The outcome with its next state under `next`, and the state that a stuck routine holds in under `held`. -/
def mapOutcome (next held : State → State) : Outcome State Fault Refusal → Outcome State Fault Refusal
  | .next t => .next (next t)
  | .fault (.inputExhausted h) => .fault (.inputExhausted (held h))
  | .refused r => .refused r

namespace Unseen

variable {f g : State → State} (hf : Unseen f g)
include hf

theorem waitChar (s : State) {k : Byte → State → State} (hk : ∀ c t, k c (f t) = g (k c t)) :
    (f s).waitChar k = mapOutcome g f (s.waitChar k) := by
  cases hin : s.input with
  | nil =>
    rw [State.waitChar_nil k hin, State.waitChar_nil k ((hf.input s).trans hin)]
    rfl
  | cons c rest =>
    rw [State.waitChar_cons k hin, State.waitChar_cons k ((hf.input s).trans hin), hf.take, hk]
    rfl

theorem routineGetc (s : State) : routineGetc (f s) = mapOutcome g f (routineGetc s) :=
  hf.waitChar s fun c t => hf.writeResult t 0#3 (zextByte c)

theorem routineIn (s : State) : routineIn (f s) = mapOutcome g f (routineIn s) := by
  rw [Machine.routineIn, hf.outPutAll, hf.inPrompt]
  refine hf.waitChar _ fun c t => ?_
  rw [State.outPut_eq, hf.outPut, hf.writeResult, State.outPut_eq]

theorem routineInu16 (parse : List Byte → Option (Word × Nat)) (s : State) :
    routineInu16 parse (f s) = mapOutcome g f (routineInu16 parse s) := by
  unfold Machine.routineInu16
  rw [hf.input]
  split
  · rw [hf.takeMany]
    rfl
  · rw [hf.takeMany, hf.writeResult]
    rfl

/-- A well-formed instruction other than BR carries f along, and turns it into g when it writes a result. -/
theorem exec_carried_of_wf {i : Instr} (hwf : i.wf = true) (hbr : ∀ n z p off9, i ≠ .br n z p off9) (s : State) :
    ((∃ r, Results i r) ∧ exec i (f s) = mapOutcome g f (exec i s)) ∨
      ((∀ r, ¬ Results i r) ∧ exec i (f s) = mapOutcome f f (exec i s)) := by
  cases i with
  | br n z p off9 => exact absurd rfl (hbr n z p off9)
  | addReg | addImm | andReg | andImm | notReg | lea =>
    refine .inl ⟨⟨_, rfl⟩, ?_⟩
    simp only [exec_addReg, exec_addImm, exec_andReg, exec_andImm, exec_notReg, exec_lea, mapOutcome, hf.reg, hf.pc,
      hf.writeResult]
  | ld | ldi | ldr =>
    refine .inl ⟨⟨_, rfl⟩, ?_⟩
    simp only [exec_ld, exec_ldi, exec_ldr, mapOutcome, hf.reg, hf.pc, hf.memRead, hf.loadInto]
  | st | sti | str =>
    refine .inr ⟨fun _ => id, ?_⟩
    simp only [exec_st, exec_sti, exec_str, mapOutcome, hf.reg, hf.pc, hf.memRead, hf.memWrite]
  | jmp | jsr | jsrr =>
    refine .inr ⟨fun _ => id, ?_⟩
    simp only [exec_jmp, exec_jsr, exec_jsrr, mapOutcome, hf.reg, hf.pc, hf.jsrrLinkFirst, hf.link, hf.setPc]
  | rti | res =>
    refine .inr ⟨fun _ => id, ?_⟩
    simp only [exec_rti, exec_res, mapOutcome, hf.ipc, hf.ir, hf.report]
  | trap vect =>
    refine .inr ⟨not_results_of_wf hwf, ?_⟩
    simp only [exec_trap_invalid (vect_invalid_of_wf hwf), mapOutcome, hf.ipc, hf.ir, hf.report]
  | trapGetc =>
    refine .inl ⟨⟨_, rfl⟩, ?_⟩
    exact (congrArg Machine.routineGetc (hf.trapEntry s)).trans (hf.routineGetc _)
  | trapIn =>
    refine .inl ⟨⟨_, rfl⟩, ?_⟩
    exact (congrArg Machine.routineIn (hf.trapEntry s)).trans (hf.routineIn _)
  | trapInu16 =>
    refine .inl ⟨⟨_, rfl⟩, ?_⟩
    exact (congrArg (Machine.routineInu16 decIn) (hf.trapEntry s)).trans (hf.routineInu16 decIn _)
  | trapOut =>
    refine .inr ⟨fun _ => id, ?_⟩
    simp only [exec_trapOut, hf.reg, hf.trapEntry, hf.outPut, mapOutcome]
  | trapOutu16 =>
    refine .inr ⟨fun _ => id, ?_⟩
    simp only [exec_trapOutu16, hf.reg, hf.trapEntry, hf.outPutAll, mapOutcome]
  | trapPuts =>
    refine .inr ⟨fun _ => id, ?_⟩
    simp only [exec_trapPuts, hf.reg, hf.trapEntry, hf.printString sendWord_eq_outPutAll, mapOutcome]
  | trapPutsp =>
    refine .inr ⟨fun _ => id, ?_⟩
    simp only [exec_trapPutsp, hf.reg, hf.trapEntry, hf.printString sendPacked_eq_outPutAll, mapOutcome]
  | trapHalt =>
    refine .inr ⟨fun _ => id, ?_⟩
    simp only [exec_trapHalt, hf.haltBanner, hf.trapEntry, hf.outPutAll, hf.stopWith, mapOutcome]

/-- The same for every instruction. -/
theorem exec_carried {i : Instr} (hbr : ∀ n z p off9, i ≠ .br n z p off9) (s : State) :
    ((∃ r, Results i r) ∧ exec i (f s) = mapOutcome g f (exec i s)) ∨
      ((∀ r, ¬ Results i r) ∧ exec i (f s) = mapOutcome f f (exec i s)) := by
  revert hbr
  refine forall_instr (P := fun i => (∀ n z p off9, i ≠ .br n z p off9) →
    ((∃ r, Results i r) ∧ exec i (f s) = mapOutcome g f (exec i s)) ∨
      ((∀ r, ¬ Results i r) ∧ exec i (f s) = mapOutcome f f (exec i s)))
    (fun i hwf hbr => hf.exec_carried_of_wf hwf hbr s) (fun v ih _ => ?_) i
  simp only [← results_decodeTrap, ← exec_decodeTrap]
  exact ih (decodeTrap_ne_br v)

end Unseen

/-! ### The flags -/

theorem unseen_setCond (c : Cond) : Unseen (fun s => s.setCond c) id := by
  constructor
  all_goals intros; rfl

/-- Settles O50: a change of the flags is unseen; a result overwrites it, and otherwise it is still there. -/
theorem onlyBranchReadsTheFlags : Obligations.OnlyBranchReadsTheFlags := by
  unfold Obligations.OnlyBranchReadsTheFlags
  intro i s t c hbr h
  obtain ⟨⟨r, hr⟩, hexec⟩ | ⟨hnone, hexec⟩ := (unseen_setCond c).exec_carried hbr s
  · exact ⟨fun _ => hexec.trans (congrArg _ h), fun hnone => absurd hr (hnone r)⟩
  · exact ⟨fun ⟨r, hr⟩ => absurd hr (hnone r), fun _ => hexec.trans (congrArg _ h)⟩

/-! ### The trace -/

theorem untraced_emit (s : State) {e : Event} (h : e.isTrace = false) :
    (untraced s).emit e = untraced (s.emit e) := by
  simp [untraced, State.emit, h]

theorem untraced_emit_trace (s : State) (ipc ir : Word) (regs : Vector Word 8) (cond : Cond) :
    untraced (s.emit (.trace ipc ir regs cond)) = untraced s := by
  simp [untraced, State.emit, Event.isTrace]

theorem unseen_untraced : Unseen untraced untraced := by
  constructor
  case emit => exact fun s e h => untraced_emit s h
  all_goals intros; rfl

/-- BR reads the flags, which the trace does not touch. -/
theorem exec_untraced (i : Instr) (s : State) : exec i (untraced s) = mapOutcome untraced untraced (exec i s) := by
  by_cases hbr : ∃ n z p off9, i = .br n z p off9
  · obtain ⟨n, z, p, off9, rfl⟩ := hbr
    rw [exec_br_branchTaken, exec_br_branchTaken]
    rfl
  · obtain ⟨-, hexec⟩ | ⟨-, hexec⟩ := unseen_untraced.exec_carried (fun n z p off9 h => hbr ⟨n, z, p, off9, h⟩) s
    · exact hexec
    · exact hexec

/-- The fetch without its trace record. -/
theorem traceFetch_untraced (s : State) : (untraced s).traceFetch = untraced s.traceFetch := by
  have hoff : (untraced s).traceFetch = untraced s := rfl
  rw [hoff, State.traceFetch]
  split
  · exact (untraced_emit_trace s _ _ _ _).symm
  · rfl

theorem fetch_untraced (s : State) : (untraced s).fetch = untraced s.fetch := by
  have hfetched (u : State) (a w : Word) : (untraced u).setFetched a w = untraced (u.setFetched a w) := rfl
  simp only [State.fetch, unseen_untraced.pc, unseen_untraced.memRead, hfetched, traceFetch_untraced,
    unseen_untraced.setPc]

theorem hostTick_untraced (s : State) : (untraced s).hostTick = untraced s.hostTick := by
  have hstopIn : (untraced s).stopIn = s.stopIn := rfl
  unfold State.hostTick
  rw [hstopIn]
  split
  · rfl
  · exact untraced_emit (s.setStop true none) rfl
  · rfl

theorem finishStep_untraced (o : Outcome State Fault Refusal) :
    finishStep (mapOutcome untraced untraced o) = mapOutcome untraced untraced (finishStep o) := by
  cases o with
  | next t => exact congrArg Outcome.next (hostTick_untraced t)
  | fault e => rfl
  | refused r => rfl

/-- A step without the trace is the step, without its trace records. -/
theorem step_untraced (s : State) : step (untraced s) = mapOutcome untraced untraced (step s) := by
  have hrun : (untraced s).run = s.run := rfl
  have hpending : (untraced s).stopPending = s.stopPending := rfl
  have hir : (untraced s.fetch).ir = s.fetch.ir := rfl
  unfold step
  rw [hrun, hpending, fetch_untraced, hir, exec_untraced, finishStep_untraced]
  cases s.run with
  | halted => rfl
  | running => cases s.stopPending <;> rfl

/-- Settles O60: both outcomes of a step, by the one equation. -/
theorem traceHasNoEffectOnExecution : Obligations.TraceHasNoEffectOnExecution := by
  unfold Obligations.TraceHasNoEffectOnExecution
  intro s
  rw [step_untraced]
  exact ⟨fun t h => by rw [h]; rfl, fun e h => by rw [h]; rfl⟩

end Sys2Proof.Machine
end

section
/-! PROOFS. Loading (70_reset_and_hazards.md R205, R208; 10_state.md R38): what memory reads as after an image is placed, and the
state the run begins in. -/

namespace Sys2Proof.Machine

/-- An address below the image or above it reads as before. -/
theorem Memory.read_place_outside (ws : List Word) (m : Memory) {k j : Nat} (h : j < k ∨ k + ws.length ≤ j) :
    Memory.read (Memory.place m k ws) j = Memory.read m j := by
  induction ws generalizing m k with
  | nil => rfl
  | cons w ws ih =>
    rw [List.length_cons] at h
    unfold Memory.place
    split
    · rw [ih _ (by omega), Memory.read_write_other m (by omega)]
    · rfl

/-- Word i of an image stands i addresses after the first, up to the top of memory. -/
theorem Memory.read_place_inside (ws : List Word) (m : Memory) {k i : Nat} (hi : i < ws.length) (htop : k + i < 0x10000) :
    Memory.read (Memory.place m k ws) (k + i) = ws[i] := by
  induction ws generalizing m k i with
  | nil => exact absurd hi (Nat.not_lt_zero i)
  | cons w ws ih =>
    have hk : k < 0x10000 := by omega
    rw [Memory.place, if_pos hk]
    cases i with
    | zero =>
      have hkept := Memory.read_place_outside ws (Memory.write m k w) (.inl (Nat.lt_succ_self k))
      exact hkept.trans (Memory.read_write_same m k w)
    | succ i =>
      have hnext := ih (Memory.write m k w) (k := k + 1) (i := i) (by simpa using hi) (by omega)
      rw [Nat.add_right_comm] at hnext
      exact hnext

theorem State.reset_reg (r : RegIdx) : State.reset.reg r = 0x0000#16 := Vector.getElem_replicate _

/-- The state that the run of a non-empty image begins in. -/
theorem State.load_of_ne_nil (p : Params) (initMem : Memory) (base : Word) {image : List Word} (h : image ≠ [])
    (entry : Word) (input : List InChar) (pending : Bool) (after : Option Nat) :
    State.load p initMem base image entry input pending after = .ok { State.reset with
      mem := Memory.place initMem base.toNat image, pc := entry, input := input, stopPending := pending,
      stopIn := after, params := p } := by
  cases image with
  | nil => exact absurd rfl h
  | cons w ws => rfl

/-- Settles O1: the fields of the reset state. -/
theorem resetLeavesTheSpecState : Obligations.ResetLeavesTheSpecState := by
  unfold Obligations.ResetLeavesTheSpecState
  exact ⟨State.reset_reg, rfl, rfl, rfl, rfl, rfl, fun _ => rfl, rfl, rfl, rfl⟩

/-- Settles O2: the fields of reset but those the host sets, and the image placed over INIT_MEM. -/
theorem loadBeginsTheRun : Obligations.LoadBeginsTheRun := by
  unfold Obligations.LoadBeginsTheRun
  intro p initMem base image entry input pending after himage
  refine ⟨_, State.load_of_ne_nil p initMem base himage entry input pending after, State.reset_reg, rfl, rfl, rfl, rfl,
    rfl, rfl, rfl, rfl, fun k hk htop => ?_, fun a ha => ?_⟩
  · have haddr : (base + BitVec.ofNat 16 k).toNat = base.toNat + k := by bv_omega
    rw [State.cell, haddr]
    exact Memory.read_place_inside image initMem hk htop
  · have houtside := Memory.read_place_outside image initMem ha
    exact ⟨houtside, fun hempty => houtside.trans (hempty ▸ rfl)⟩

/-- Settles O3: the load looks at the image first. -/
theorem emptyImageIsRefused : Obligations.EmptyImageIsRefused := by
  unfold Obligations.EmptyImageIsRefused
  exact fun _ _ _ _ _ _ _ => rfl

end Sys2Proof.Machine
end

section
/-! PROOFS. PUTS on a whole string in plain storage (43_trap_and_reserved.md R154): no read polls, so the loop sends the low bytes
and stops at the zero word. -/

namespace Sys2Proof.Machine

open Sys2Proof.Spec

/-- From address a stand the non-zero words ws and then a zero word, none of them at KBSR or past the top of memory. -/
inductive PlainString (s : State) : Word → List Word → Prop where
  | nil {a : Word} (hplain : a ≠ Config.kbsr) (hzero : s.cell a = 0x0000#16) : PlainString s a []
  | cons {a w : Word} {ws : List Word} (hplain : a ≠ Config.kbsr) (htop : a ≠ 0xFFFF#16) (hcell : s.cell a = w)
      (hw : w ≠ 0x0000#16) (rest : PlainString s (a + 1#16) ws) : PlainString s a (w :: ws)

theorem PlainString.of_cells {s : State} {a : Word} {ws : List Word} (hne : ∀ w ∈ ws, w ≠ 0x0000#16)
    (hfits : a.toNat + ws.length ≤ 0xFFFF) (hplain : ∀ k ≤ ws.length, a + BitVec.ofNat 16 k ≠ Config.kbsr)
    (hcells : ∀ (k : Nat) (h : k < ws.length), s.cell (a + BitVec.ofNat 16 k) = ws[k])
    (hzero : s.cell (a + BitVec.ofNat 16 ws.length) = 0x0000#16) : PlainString s a ws := by
  induction ws generalizing a with
  | nil => exact .nil (by simpa using hplain 0) (by simpa using hzero)
  | cons w ws ih =>
    rw [List.length_cons] at hfits hplain hzero
    obtain ⟨hw, hws⟩ := List.forall_mem_cons.mp hne
    have hnext (k : Nat) : a + 1#16 + BitVec.ofNat 16 k = a + BitVec.ofNat 16 (k + 1) := by
      rw [BitVec.add_assoc, Nat.add_comm k 1, BitVec.ofNat_add]
    refine .cons (by simpa using hplain 0) (by bv_omega) (by simpa using hcells 0) hw (ih hws ?_ ?_ ?_ ?_)
    · bv_omega
    · exact fun k hk => hnext k ▸ hplain (k + 1) (by omega)
    · exact fun k hk => hnext k ▸ hcells (k + 1) (Nat.succ_lt_succ hk)
    · exact hnext ws.length ▸ hzero

/-- The loop on a plain string, in any state with its cells. -/
theorem stringLoop_plainString {s : State} {a : Word} {ws : List Word} (h : PlainString s a ws) {t : State}
    (hcells : ∀ b, t.cell b = s.cell b) {fuel : Nat} (hfuel : ws.length < fuel) :
    stringLoop sendWord fuel a t = t.outPutAll (ws.map fun w => bits w 0 8) := by
  induction h generalizing t fuel with
  | nil hplain hzero =>
    obtain ⟨fuel, rfl⟩ := Nat.exists_eq_succ_of_ne_zero (Nat.ne_zero_of_lt hfuel)
    simp only [stringLoop, t.memRead_plain hplain, hcells, hzero, if_true]
    rfl
  | @cons a w ws hplain htop hcell hw _ ih =>
    obtain ⟨fuel, rfl⟩ := Nat.exists_eq_succ_of_ne_zero (Nat.ne_zero_of_lt hfuel)
    simp only [stringLoop, t.memRead_plain hplain, hcells, hcell, hw, htop, if_false, sendWord_eq_outPutAll]
    exact ih (fun b => (State.outPutAll_cell t _ b).trans (hcells b)) (Nat.lt_of_succ_lt_succ hfuel)

/-- Settles O42: the string is plain, and the trap entry changes no cell. -/
theorem putsPrintsAPlainString : Obligations.PutsPrintsAPlainString := by
  unfold Obligations.PutsPrintsAPlainString
  intro s ws hne hfits hplain hcells hzero
  have hfuel : ws.length < wordsToTop (s.reg 0#3) := by
    unfold wordsToTop
    omega
  have hloop : printString sendWord (s.reg 0#3) s.trapEntry = s.trapEntry.outPutAll (ws.map fun w => bits w 0 8) :=
    stringLoop_plainString (.of_cells hne hfits hplain hcells hzero) s.trapEntry_cell hfuel
  refine ⟨_, (exec_trapPuts s).trans (congrArg _ hloop), ?_,
    linkedR7_and_sameBut (sameBut_outPutAll s.trapEntry _) (by simp)⟩
  rw [State.outPutAll_history, s.trapEntry_history, List.map_map]
  rfl

end Sys2Proof.Machine
end

section
/-! PROOFS. The step (10_state.md R39; 60_exceptions.md R187, R188; 20_memory.md R71), and ADD and AND in their two modes
(40_operate.md sections 2 and 3). -/

namespace Sys2Proof.Machine

open Sys2Proof.Spec

/-! ### The branches of a step -/

theorem step_of_stopPending {s : State} (hrun : s.run = .running) (hpending : s.stopPending = true) :
    step s = .next s.takeStop := by
  simp only [step, hrun, hpending, if_true]

theorem step_of_running {s : State} (hrun : s.run = .running) (hpending : s.stopPending = false) :
    step s = finishStep (exec (decode s.fetch.ir) s.fetch) := by
  simp only [step, hrun, hpending, Bool.false_eq_true, if_false]

theorem State.fetch_history (s : State) :
    s.fetch.history = (s.afterRead s.pc).history ++
      (if s.params.traceEnabled then [.trace s.pc (s.memRead s.pc).1 s.regs s.cond] else []) := by
  unfold State.fetch State.traceFetch
  simp only [State.setFetched_params, State.memRead_snd, State.afterRead_params]
  split <;> simp

/-- The fetch changes the state that the read leaves in these fields only. -/
theorem State.fetch_eq (s : State) :
    s.fetch = { s.afterRead s.pc with
      ipc := s.fetch.ipc, ir := s.fetch.ir, pc := s.fetch.pc, history := s.fetch.history } := by
  unfold State.fetch State.traceFetch
  dsimp only
  split <;> rfl

theorem State.hostTick_of_stopIn_none {s : State} (h : s.stopIn = none) : s.hostTick = s := by
  simp only [State.hostTick, h]

theorem State.hostTick_of_stopIn_zero {s : State} (h : s.stopIn = some 0) : s.hostTick = s.raiseStop := by
  simp only [State.hostTick, h]

/-- No instruction touches the host's stop schedule. -/
theorem exec_stopIn {i : Instr} {s t : State} (h : exec i s = .next t) : t.stopIn = s.stopIn := by
  obtain ⟨parts, ⟨-, -, -, -, -, -, -, -, -, -, hstopIn, -⟩, -⟩ := framed_of_exec h
  exact hstopIn

/-! ### The obligations -/

/-- Settles O45: the first branch after Halted, which writes run and cause. -/
theorem stopRequestIsTaken : Obligations.StopRequestIsTaken := by
  unfold Obligations.StopRequestIsTaken
  exact fun s hrun hpending => ⟨_, step_of_stopPending hrun hpending, rfl, rfl, rfl, sameBut_stopWith s .interrupted⟩

/-- Settles O44: the state after the fetch, field by field, and the instruction run in it. -/
theorem stepRunsTheDecodedInstruction : Obligations.StepRunsTheDecodedInstruction := by
  unfold Obligations.StepRunsTheDecodedInstruction
  intro s u w i hrun hpending hread hdecode
  obtain rfl : (s.memRead s.pc).1 = w := congrArg Prod.fst hread
  obtain rfl : (s.memRead s.pc).2 = u := congrArg Prod.snd hread
  have hstep : step s = finishStep (exec i s.fetch) := by
    rw [step_of_running hrun hpending, s.fetch_ir, hdecode]
  refine ⟨s.fetch, s.fetch_ipc, s.fetch_ir, s.fetch_pc, s.fetch_history, s.fetch_eq, hstep, fun v hv => ?_, fun e he => ?_⟩
  · have htick : step s = .next v.hostTick := by rw [hstep, hv, finishStep]
    exact ⟨htick, fun hnone => by rw [htick, State.hostTick_of_stopIn_none hnone]⟩
  · rw [hstep, he, finishStep]

/-- Settles O19: the store and the read meet at one cell, with no poll between. -/
theorem storeIsSeenByTheNextFetch : Obligations.StoreIsSeenByTheNextFetch := by
  unfold Obligations.StoreIsSeenByTheNextFetch
  intro s a v hlow hkbsr hddr hmcr hrun hpending
  have hstored : s.memWrite a v = s.setCell a v := s.memWrite_stores v hddr hmcr (Nat.not_le.mpr hlow)
  have hir : ((s.setCell a v).setPc a).fetch.ir = v := by
    rw [State.fetch_ir, State.setPc_pc, State.memRead_plain _ hkbsr, State.setPc_cell, State.cell_setCell_same]
  rw [hstored]
  refine ⟨hir, ?_⟩
  rw [step_of_running (s := (s.setCell a v).setPc a) hrun hpending, hir]

/-- Settles O47: the host's tick sets the latch, which the next step of a running machine takes; a halt in the step was the
instruction's own. -/
theorem scheduledStopIsTakenAtTheNextBoundary : Obligations.ScheduledStopIsTakenAtTheNextBoundary := by
  unfold Obligations.ScheduledStopIsTakenAtTheNextBoundary
  intro s t hrun hpending hstopIn h
  obtain ⟨u, hu, rfl⟩ := finishStep_next ((step_of_running hrun hpending).symm.trans h)
  have htick : u.hostTick = u.raiseStop :=
    State.hostTick_of_stopIn_zero ((exec_stopIn hu).trans (s.fetch_stopIn.trans hstopIn))
  rw [htick]
  refine ⟨rfl, fun hgoes => ⟨_, step_of_stopPending hgoes rfl, rfl, rfl⟩, fun hhalted => ⟨?_, step_of_halted hhalted⟩⟩
  obtain ⟨hkept, -⟩ | ⟨-, hcause⟩ := exec_run_cause hu
  · have hrunning : u.run = .running := hkept.trans (s.fetch_run.trans hrun)
    cases hrunning.symm.trans hhalted
  · exact hcause

/-- Settles O16: both forms compute on the two operands they read. -/
theorem immediateModeAgreesWithRegisterMode : Obligations.ImmediateModeAgreesWithRegisterMode := by
  unfold Obligations.ImmediateModeAgreesWithRegisterMode
  intro dr sr1 sr2 imm5 s hsr2
  exact ⟨by rw [exec_addImm, exec_addReg, hsr2], by rw [exec_andImm, exec_andReg, hsr2]⟩

end Sys2Proof.Machine
end
